-- ==== Sys2Proof/Word.lean ====
section
/-! DEFINITION. The word and byte types of the core (spec/00_scope.md R8, R10; spec/10_state.md R20). -/

namespace Sys2Proof

/-- A `u32`: the contents of a register and of the value field (R8: `XLEN` is fixed at 32). -/
abbrev Word := BitVec 32

/-- A `u8`: one byte of memory (R10, R32). -/
abbrev Byte := BitVec 8

end Sys2Proof
end

