-- ==== Sys2Proof/Config.lean ====
section
/-! DEFINITION. What the spec fixes for every core, the range of its two open parameters, and the values the
model's reset state takes for them (spec/00_scope.md R8). -/

namespace Sys2Proof

/-- `IW`, the instruction width in bytes (R8, R60). -/
abbrev Config.instrBytes : Nat := 6

/-- `SP_STEP`: PUSH and POP change `sp` by 4 whatever the access width (R8). -/
abbrev Config.stackStep : Word := 4#32

/-- The smallest `MEM_CAPACITY` a model may take (R8, decision D21). -/
abbrev Config.minCapacity : Nat := 6

/-- The largest `MEM_CAPACITY` a model may take, `2^32` (R8, decision D21). -/
abbrev Config.maxCapacity : Nat := 4294967296

/-- The capacity of `State.reset`. DESIGN CHOICE (log 1, unsafe): R8 leaves `MEM_CAPACITY` open and gives 8192 as
the source's example; `State.powerOn` takes any capacity. -/
abbrev Config.resetCapacity : Nat := 8192

/-- What an address that no cell lists reads as. DESIGN CHOICE (log 2, unsafe): R190 leaves the power-on bytes
`INIT_MEM` open; a memory with any other initial byte lists it, and `State.powerOn` builds that memory. -/
abbrev Config.unlistedByte : Byte := 0#8

end Sys2Proof
end

