-- ==== Sys2Proof/Syntax.lean ====
section
/-! DEFINITION. The syntax of the core: the decoded record of R61 and one constructor per row of
spec/opcode_table.json (R74). Register fields are the raw 4-bit fields and width fields the raw 2-bit fields: a value
that names nothing decodes normally and is rejected when it executes (R65 to R68). -/

namespace Sys2Proof

/-- A `dest` or `src` field: 4 bits, of which 0 to 8 name registers (R61, R66). -/
abbrev RegField := BitVec 4

/-- A `width` field: an access size code on a memory access (R64). -/
abbrev WidthField := BitVec 2

/-- The decoded instruction record of R61, all six fields. This is what `last` holds (R31). -/
structure Instruction where
  /-- "small unsigned code, one of a closed enumeration" -/
  opcode : BitVec 5
  /-- "single bit selecting an opcode-specific addressing/operand variant" -/
  mode : BitVec 1
  /-- "2-bit field selecting access granularity"; the condition of a JUMP (R160) -/
  width : WidthField
  /-- 4-bit register index -/
  dest : RegField
  /-- 4-bit register index -/
  src : RegField
  /-- "32-bit immediate/address/offset operand" -/
  value : Word
deriving DecidableEq, Repr

/-- The instructions: one constructor per row of spec/opcode_table.json, carrying the fields the instruction uses
(R69; log 5). `rd` is the `dest` field, `rs` the `src` field, `w` the width field, `v` the value field. -/
inductive Instr where
  /-- NOP (R100) -/
  | nop
  /-- LOAD, immediate (R101) -/
  | loadImm (rd : RegField) (v : Word)
  /-- LOAD.mem (R102) -/
  | loadMem (rd : RegField) (w : WidthField) (v : Word)
  /-- STORE, a register copy (R103) -/
  | storeReg (rd rs : RegField)
  /-- STORE.mem (R104) -/
  | storeMem (rd : RegField) (w : WidthField) (v : Word)
  /-- ADD (R110) -/
  | addReg (rd rs : RegField)
  /-- ADD.imm (R111) -/
  | addImm (rd : RegField) (v : Word)
  /-- SUB (R112) -/
  | subReg (rd rs : RegField)
  /-- SUB.imm (R113) -/
  | subImm (rd : RegField) (v : Word)
  /-- MULU (R114) -/
  | mulu (rd rs : RegField)
  /-- MULS (R115) -/
  | muls (rd rs : RegField)
  /-- DIVU (R116) -/
  | divu (rd rs : RegField)
  /-- DIVS (R117) -/
  | divs (rd rs : RegField)
  /-- OR (R130) -/
  | orReg (rd rs : RegField)
  /-- OR.imm (R131) -/
  | orImm (rd : RegField) (v : Word)
  /-- AND (R132) -/
  | andReg (rd rs : RegField)
  /-- AND.imm (R133) -/
  | andImm (rd : RegField) (v : Word)
  /-- XOR (R134) -/
  | xorReg (rd rs : RegField)
  /-- XOR.imm (R135) -/
  | xorImm (rd : RegField) (v : Word)
  /-- NOT (R136) -/
  | notReg (rd : RegField)
  /-- NOT.imm (R137) -/
  | notImm (v : Word)
  /-- SHR (R138) -/
  | shrReg (rd rs : RegField)
  /-- SHR.imm (R139) -/
  | shrImm (rd : RegField) (v : Word)
  /-- SHL (R140) -/
  | shlReg (rd rs : RegField)
  /-- SHL.imm (R141) -/
  | shlImm (rd : RegField) (v : Word)
  /-- POP (R151) -/
  | pop (rd : RegField)
  /-- PUSH (R150) -/
  | push (rd : RegField) (w : WidthField)
  /-- JZ, register target (R162) -/
  | jzReg (rd : RegField)
  /-- JNS, register target (R162) -/
  | jnsReg (rd : RegField)
  /-- JS, register target (R162) -/
  | jsReg (rd : RegField)
  /-- JMP, register target (R162) -/
  | jmpReg (rd : RegField)
  /-- JZ.imm (R163) -/
  | jzImm (v : Word)
  /-- JNS.imm (R163) -/
  | jnsImm (v : Word)
  /-- JS.imm (R163) -/
  | jsImm (v : Word)
  /-- JMP.imm (R163) -/
  | jmpImm (v : Word)
deriving DecidableEq, Repr

end Sys2Proof
end

