-- ==== Sys2Proof/Machine/State.lean ====
section
/-! DEFINITION. The state of the core, exactly the record of spec/10_state.md R33, the four fault kinds, the reasons for
a refusal, and the state after power-on (spec/70_reset_and_hazards.md R190). -/

namespace Sys2Proof.Machine

/-- The nine registers of R21. -/
inductive Reg where
  /-- register 0 -/
  | a
  /-- register 1 -/
  | b
  /-- register 2: destination of every logic operation, and the condition JUMP tests (R23) -/
  | c
  /-- register 3 -/
  | d
  /-- register 4: MUL product, DIV remainder (R24) -/
  | e
  /-- register 5: DIV quotient (R24) -/
  | f
  /-- register 6: the stack pointer (R25) -/
  | sp
  /-- register 7: the base pointer, with no implicit use (R26) -/
  | bp
  /-- register 8: the instruction pointer (R27) -/
  | ip
deriving DecidableEq, Repr

/-- The register file: nine 32-bit registers (R20), none hard-wired, no alias, bank or window (R21, R22). -/
structure Regs where
  a : Word
  b : Word
  c : Word
  d : Word
  e : Word
  f : Word
  sp : Word
  bp : Word
  ip : Word
deriving DecidableEq, Repr

/-- The fault kinds of R170. A cycle that raises one takes it: the latch of the next state holds it and the step answers
`next` (R177; log 3), so no step answers one of these. The host's own operations answer them (R196, R197). -/
inductive Fault where
  /-- Code 1. Raised into the latch by a fetch, a data span or a JUMP target outside memory (R172), and answered to
  the host, unlatched, by a `loadImage` that does not fit (R196). Safe. -/
  | memoryFault
  /-- Code 2. Raised into the latch by an opcode of 15 to 31, and by width code 3 on a memory access (R173). Safe. -/
  | opcodeFault
  /-- Code 3. Raised into the latch by DIVU and DIVS with a zero divisor (R174). Safe. -/
  | divideByZero
  /-- Code 4. Raised into the latch by a used register field of 9 to 15 (R175), and answered to the host, unlatched, by
  the register test access with an index above 8 (R197). Safe. -/
  | indexFault
deriving DecidableEq, Repr

/-- Why an operation is given no meaning. -/
inductive Refusal where
  /-- An instruction that `exec` gives no meaning yet; no arm of `exec` answers it. Safe. -/
  | notModelled (mnemonic : String)
  /-- The host's `loadImage` after the first cycle: "a model refuses it and does not give it one" (R195, I13). Answered
  by `Session.loadImage` only. Safe. -/
  | loadAfterFirstCycle
deriving DecidableEq, Repr

/-- The memory array (R32): its length `MEM_CAPACITY` (R8), and the bytes that differ from `Config.unlistedByte`, by
rising address (`Memory.wf`). -/
structure Memory where
  capacity : Nat
  cells : List Host.Cell
deriving DecidableEq, Repr

/-- The architectural state of R33. -/
structure State where
  /-- the register file `x` -/
  regs : Regs
  /-- the memory array `mem`, with its length -/
  mem : Memory
  /-- the fault latch: `none` is Healthy, `some k` is Faulted(k) (R30: "A single optional fault value") -/
  latch : Option Fault
  /-- the last-instruction register (R31) -/
  last : Option Instruction
deriving DecidableEq, Repr

/-- Every register 0, as the source's "allocated once at engine start, reset to zero" (R190). -/
def Regs.zero : Regs :=
  ⟨0#32, 0#32, 0#32, 0#32, 0#32, 0#32, 0#32, 0#32, 0#32⟩

/-- The state after power-on (R190): registers 0, latch Healthy, `last` None. Its capacity is 8192 (log 1) and its
memory all zero bytes (log 2); `State.powerOn` gives the state for any other value of these two open parameters. -/
def State.reset : State where
  regs := Regs.zero
  mem := ⟨Config.resetCapacity, []⟩
  latch := none
  last := none

end Sys2Proof.Machine
end

