-- ==== Sys2Proof/Machine/Flags.lean ====
section
/-! DEFINITION. The core has no flag and no flag computation (spec/10_state.md R29): JUMP's conditions, computed from
register `c` when the JUMP executes (spec/45_control.md R160), are all there is. -/

namespace Sys2Proof.Machine

/-- The four conditions of R160, in the order of their codes. -/
inductive JumpCond where
  /-- 0, `JZ` -/
  | zero
  /-- 1, `JNS` -/
  | notSign
  /-- 2, `JS` -/
  | sign
  /-- 3, `JMP` -/
  | always
deriving DecidableEq, Repr

/-- Whether a JUMP is taken, from its condition and the value of `c` at the start of the cycle (R160). -/
def JumpCond.taken (cond : JumpCond) (c : Word) : Bool :=
  match cond with
  | .zero => c == 0#32
  | .notSign => decide (0 ≤ c.toInt)
  | .sign => decide (c.toInt < 0)
  | .always => true

end Sys2Proof.Machine
end

