-- ==== Sys2Proof/Decode.lean ====
section
/-! DEFINITION. Decoding and encoding of the 6-byte instruction word (spec/30_encoding.md R60 to R74). -/

namespace Sys2Proof

/-- Why bytes give no instruction. -/
inductive DecodeError where
  /-- Fewer than six bytes stand in the list. Answered by `decode` only: a fetch reads all six bytes or raises
  MemoryFault (R81). Safe. -/
  | truncated
  /-- The opcode is 15 to 31 and names no instruction (R67); the cycle raises OpcodeFault. Safe. -/
  | unknownOpcode (opcode : BitVec 5)
deriving DecidableEq, Repr

/-- The pure field extraction of R65, with the bit positions of R62. -/
def Instruction.decode (b0 b1 b2 b3 b4 b5 : Byte) : Instruction where
  opcode := b0.extractLsb' 0 5
  mode := b0.extractLsb' 5 1
  width := b0.extractLsb' 6 2
  dest := b1.extractLsb' 0 4
  src := b1.extractLsb' 4 4
  value := b5 ++ b4 ++ b3 ++ b2

/-- R73: the six bytes of a decoded instruction, the inverse of `Instruction.decode`. -/
def Instruction.encode (w : Instruction) : List Byte :=
  [ w.width ++ w.mode ++ w.opcode,
    w.src ++ w.dest,
    w.value.extractLsb' 0 8,
    w.value.extractLsb' 8 8,
    w.value.extractLsb' 16 8,
    w.value.extractLsb' 24 8 ]

/-- The JUMP of a condition code with a register target (R160, R162). -/
def jumpRegOf (cond : WidthField) (rd : RegField) : Instr :=
  if cond = 0#2 then .jzReg rd else if cond = 1#2 then .jnsReg rd else if cond = 2#2 then .jsReg rd else .jmpReg rd

/-- The JUMP of a condition code with an immediate target (R160, R163). -/
def jumpImmOf (cond : WidthField) (v : Word) : Instr :=
  if cond = 0#2 then .jzImm v else if cond = 1#2 then .jnsImm v else if cond = 2#2 then .jsImm v else .jmpImm v

/-- The opcode map of R74, on the opcode numbers of R63; every opcode above 14 is refused by name (R67). -/
def Instruction.toInstr (w : Instruction) : Except DecodeError Instr :=
  match w.opcode.toNat, w.mode.toNat with
  | 0, _ => .ok .nop
  | 1, 0 => .ok (.loadImm w.dest w.value)
  | 1, _ => .ok (.loadMem w.dest w.width w.value)
  | 2, 0 => .ok (.storeReg w.dest w.src)
  | 2, _ => .ok (.storeMem w.dest w.width w.value)
  | 3, 0 => .ok (.addReg w.dest w.src)
  | 3, _ => .ok (.addImm w.dest w.value)
  | 4, 0 => .ok (.subReg w.dest w.src)
  | 4, _ => .ok (.subImm w.dest w.value)
  | 5, 0 => .ok (.mulu w.dest w.src)
  | 5, _ => .ok (.muls w.dest w.src)
  | 6, 0 => .ok (.divu w.dest w.src)
  | 6, _ => .ok (.divs w.dest w.src)
  | 7, 0 => .ok (.orReg w.dest w.src)
  | 7, _ => .ok (.orImm w.dest w.value)
  | 8, 0 => .ok (.andReg w.dest w.src)
  | 8, _ => .ok (.andImm w.dest w.value)
  | 9, 0 => .ok (.xorReg w.dest w.src)
  | 9, _ => .ok (.xorImm w.dest w.value)
  | 10, 0 => .ok (.notReg w.dest)
  | 10, _ => .ok (.notImm w.value)
  | 11, 0 => .ok (.shrReg w.dest w.src)
  | 11, _ => .ok (.shrImm w.dest w.value)
  | 12, 0 => .ok (.shlReg w.dest w.src)
  | 12, _ => .ok (.shlImm w.dest w.value)
  | 13, 0 => .ok (.pop w.dest)
  | 13, _ => .ok (.push w.dest w.width)
  | 14, 0 => .ok (jumpRegOf w.width w.dest)
  | 14, _ => .ok (jumpImmOf w.width w.value)
  | _, _ => .error (.unknownOpcode w.opcode)

/-- The first instruction of a byte sequence and the bytes after it: always six bytes (R72). -/
def decode : List Byte → Except DecodeError (Instr × List Byte)
  | b0 :: b1 :: b2 :: b3 :: b4 :: b5 :: rest =>
    match (Instruction.decode b0 b1 b2 b3 b4 b5).toInstr with
    | .ok i => .ok (i, rest)
    | .error e => .error e
  | _ => .error .truncated

/-- The record of an instruction: its opcode and mode by R74, its used fields, and 0 in every field it ignores (R75:
"A field the notation does not show is encoded as 0"; log 5). -/
def Instr.toInstruction : Instr → Instruction
  | .nop => ⟨0#5, 0#1, 0#2, 0#4, 0#4, 0#32⟩
  | .loadImm rd v => ⟨1#5, 0#1, 0#2, rd, 0#4, v⟩
  | .loadMem rd w v => ⟨1#5, 1#1, w, rd, 0#4, v⟩
  | .storeReg rd rs => ⟨2#5, 0#1, 0#2, rd, rs, 0#32⟩
  | .storeMem rd w v => ⟨2#5, 1#1, w, rd, 0#4, v⟩
  | .addReg rd rs => ⟨3#5, 0#1, 0#2, rd, rs, 0#32⟩
  | .addImm rd v => ⟨3#5, 1#1, 0#2, rd, 0#4, v⟩
  | .subReg rd rs => ⟨4#5, 0#1, 0#2, rd, rs, 0#32⟩
  | .subImm rd v => ⟨4#5, 1#1, 0#2, rd, 0#4, v⟩
  | .mulu rd rs => ⟨5#5, 0#1, 0#2, rd, rs, 0#32⟩
  | .muls rd rs => ⟨5#5, 1#1, 0#2, rd, rs, 0#32⟩
  | .divu rd rs => ⟨6#5, 0#1, 0#2, rd, rs, 0#32⟩
  | .divs rd rs => ⟨6#5, 1#1, 0#2, rd, rs, 0#32⟩
  | .orReg rd rs => ⟨7#5, 0#1, 0#2, rd, rs, 0#32⟩
  | .orImm rd v => ⟨7#5, 1#1, 0#2, rd, 0#4, v⟩
  | .andReg rd rs => ⟨8#5, 0#1, 0#2, rd, rs, 0#32⟩
  | .andImm rd v => ⟨8#5, 1#1, 0#2, rd, 0#4, v⟩
  | .xorReg rd rs => ⟨9#5, 0#1, 0#2, rd, rs, 0#32⟩
  | .xorImm rd v => ⟨9#5, 1#1, 0#2, rd, 0#4, v⟩
  | .notReg rd => ⟨10#5, 0#1, 0#2, rd, 0#4, 0#32⟩
  | .notImm v => ⟨10#5, 1#1, 0#2, 0#4, 0#4, v⟩
  | .shrReg rd rs => ⟨11#5, 0#1, 0#2, rd, rs, 0#32⟩
  | .shrImm rd v => ⟨11#5, 1#1, 0#2, rd, 0#4, v⟩
  | .shlReg rd rs => ⟨12#5, 0#1, 0#2, rd, rs, 0#32⟩
  | .shlImm rd v => ⟨12#5, 1#1, 0#2, rd, 0#4, v⟩
  | .pop rd => ⟨13#5, 0#1, 0#2, rd, 0#4, 0#32⟩
  | .push rd w => ⟨13#5, 1#1, w, rd, 0#4, 0#32⟩
  | .jzReg rd => ⟨14#5, 0#1, 0#2, rd, 0#4, 0#32⟩
  | .jnsReg rd => ⟨14#5, 0#1, 1#2, rd, 0#4, 0#32⟩
  | .jsReg rd => ⟨14#5, 0#1, 2#2, rd, 0#4, 0#32⟩
  | .jmpReg rd => ⟨14#5, 0#1, 3#2, rd, 0#4, 0#32⟩
  | .jzImm v => ⟨14#5, 1#1, 0#2, 0#4, 0#4, v⟩
  | .jnsImm v => ⟨14#5, 1#1, 1#2, 0#4, 0#4, v⟩
  | .jsImm v => ⟨14#5, 1#1, 2#2, 0#4, 0#4, v⟩
  | .jmpImm v => ⟨14#5, 1#1, 3#2, 0#4, 0#4, v⟩

/-- The six bytes of an instruction (R73, R75). -/
def encode (i : Instr) : List Byte :=
  i.toInstruction.encode

/-- Byte `k` of a number whose byte 0 is its least significant. -/
def byteOfNat (w k : Nat) : Byte :=
  BitVec.ofNat 8 (w / 256 ^ k)

/-- The six bytes at rising addresses of the 48-bit word `W` of R62, its bits from `nbits` up taken as 0. -/
def tableWordBytes (nbits w : Nat) : List Byte :=
  (List.range Config.instrBytes).map (byteOfNat (w % 2 ^ nbits))

/-- The instruction the decoder reads from a word numbered as spec/opcode_table.json numbers its bits. -/
def decodeTableWord (nbits w : Nat) : Option Instr :=
  match decode (tableWordBytes nbits w) with
  | .ok (i, _) => some i
  | .error _ => none

end Sys2Proof
end

