-- ==== Sys2Proof/Machine/Ops.lean ====
section
/-! DEFINITION. The named operations over registers and memory, the collected writes of an instruction and their commit,
taking a fault and the host's clearing of it, and the fetch (spec/00_scope.md R12 to R15, spec/20_memory.md,
spec/40_cycle.md, spec/60_exceptions.md). -/

namespace Sys2Proof.Machine

/-! Registers -/

/-- The register an index names (R21); 9 and above name none (R22). -/
def Reg.ofIndex : Nat → Option Reg
  | 0 => some .a
  | 1 => some .b
  | 2 => some .c
  | 3 => some .d
  | 4 => some .e
  | 5 => some .f
  | 6 => some .sp
  | 7 => some .bp
  | 8 => some .ip
  | _ => none

/-- `x[i]` read as a `u32` (R12). -/
def Regs.get (x : Regs) : Reg → Word
  | .a => x.a
  | .b => x.b
  | .c => x.c
  | .d => x.d
  | .e => x.e
  | .f => x.f
  | .sp => x.sp
  | .bp => x.bp
  | .ip => x.ip

/-- `x[i] <- v` (R12). -/
def Regs.set (x : Regs) (r : Reg) (v : Word) : Regs :=
  match r with
  | .a => { x with a := v }
  | .b => { x with b := v }
  | .c => { x with c := v }
  | .d => { x with d := v }
  | .e => { x with e := v }
  | .f => { x with f := v }
  | .sp => { x with sp := v }
  | .bp => { x with bp := v }
  | .ip => { x with ip := v }

/-! Memory -/

/-- The byte a cell list gives an address. -/
def readCells : List Host.Cell → Nat → Byte
  | [], _ => Config.unlistedByte
  | (a, b) :: rest, x => if x = a then b else readCells rest x

/-- The cell list with one address's byte changed, in canonical form. -/
def writeCells : List Host.Cell → Nat → Byte → List Host.Cell
  | [], x, v => if v = Config.unlistedByte then [] else [(x, v)]
  | (a, b) :: rest, x, v =>
    if x < a then
      if v = Config.unlistedByte then (a, b) :: rest else (x, v) :: (a, b) :: rest
    else if x = a then
      if v = Config.unlistedByte then rest else (x, v) :: rest
    else (a, b) :: writeCells rest x v

/-- The canonical form: addresses strictly rising, every listed byte different from what an unlisted address reads as,
and every address inside the array (R32). -/
abbrev Memory.wf (m : Memory) : Prop :=
  List.Pairwise (fun x y => x.1 < y.1) m.cells ∧
    ∀ x ∈ m.cells, x.2 ≠ Config.unlistedByte ∧ x.1 < m.capacity

/-- `mem[a]`. -/
def Memory.readByte (m : Memory) (a : Nat) : Byte :=
  readCells m.cells a

/-- `mem[a] <- v`. The array has no byte at or above `capacity` (R32), so nothing is written there; every access is
checked first (log 11). -/
def Memory.writeByte (m : Memory) (a : Nat) (v : Byte) : Memory :=
  if a < m.capacity then ⟨m.capacity, writeCells m.cells a v⟩ else m

/-- The bounds check of R43 to R45: `uint(addr) + n <= MEM_CAPACITY`, on unbounded integers. -/
def Memory.inBounds (m : Memory) (addr : Word) (n : Nat) : Bool :=
  decide (addr.toNat + n ≤ m.capacity)

/-- The little-endian composition of `n` bytes from address `a`, zero-extended to 32 bits (R41, R43). -/
def Memory.readSpan (m : Memory) (a : Nat) : Nat → Word
  | 0 => 0#32
  | k + 1 => m.readSpan a k ||| ((m.readByte (a + k)).setWidth 32 <<< (8 * k))

/-- The little-endian decomposition of R44: `mem[a + k] <- val[8k+7 : 8k]` for `k` below `n`. -/
def Memory.writeSpan (m : Memory) (a : Nat) : Nat → Word → Memory
  | 0, _ => m
  | k + 1, v => (m.writeSpan a k v).writeByte (a + k) (v.extractLsb' (8 * k) 8)

/-- A byte sequence copied from address `a` up (R196). -/
def Memory.writeBytes (m : Memory) : Nat → List Byte → Memory
  | _, [] => m
  | a, b :: rest => (m.writeByte a b).writeBytes (a + 1) rest

/-! The state's updates -/

/-- `x[r] <- v` in the state. -/
def State.setReg (s : State) (r : Reg) (v : Word) : State :=
  { s with regs := s.regs.set r v }

/-- The state with another memory. -/
def State.setMem (s : State) (m : Memory) : State :=
  { s with mem := m }

/-- The state with another latch. -/
def State.setLatch (s : State) (l : Option Fault) : State :=
  { s with latch := l }

/-- The state with another last-instruction register. -/
def State.setLast (s : State) (l : Option Instruction) : State :=
  { s with last := l }

/-! Faults -/

/-- The fault codes of R171. -/
def Fault.code : Fault → Nat
  | .memoryFault => 1
  | .opcodeFault => 2
  | .divideByZero => 3
  | .indexFault => 4

/-- Fault entry (R177): "the latch becomes `Faulted(k)`", and no register, no memory byte and not `ip` changes. There
is no vector, no saved register and no mode. -/
def State.takeFault (s : State) (k : Fault) : State :=
  s.setLatch (some k)

/-- The host's `reset()`, the only way out of a fault (R179, R192, R194): the latch becomes Healthy and nothing else
changes. -/
def State.clearLatch (s : State) : State :=
  s.setLatch none

/-! Execution: an instruction's writes and their commit -/

/-- One collected write of an instruction (R88). -/
inductive Write where
  /-- `RegWrite(r, v)` -/
  | reg (r : Reg) (v : Word)
  /-- `MemWrite(addr, n, v)` of the low `n` bytes of `v`, already bounds-checked (R85) -/
  | mem (addr : Word) (n : Nat) (v : Word)
deriving DecidableEq, Repr

/-- What `execute(i, S)` answers (R88): a fault, or the list of writes. -/
abbrev Effect := Except Fault (List Write)

/-- One write applied. -/
def State.applyWrite (s : State) : Write → State
  | .reg r v => s.setReg r v
  | .mem addr n v => s.setMem (s.mem.writeSpan addr.toNat n v)

/-- The writes applied in their listed order (R85), so that of two writes to one register the later lands (R14). -/
def State.commit (s : State) (ws : List Write) : State :=
  ws.foldl State.applyWrite s

/-- Whether a write is a register write to index 8, `ip` (R86). -/
def Write.isIp : Write → Bool
  | .reg .ip _ => true
  | .reg _ _ => false
  | .mem _ _ _ => false

/-- Commit, and the advance of `ip` (R86): `ip` keeps a value written to it, and otherwise becomes `pc + 6` modulo
`2^32`, where `pc` is `ip` at the start of the cycle. -/
def State.retire (s : State) (ws : List Write) : State :=
  if ws.any Write.isIp then s.commit ws
  else (s.commit ws).setReg .ip (s.regs.get .ip + BitVec.ofNat 32 Config.instrBytes)

/-- The end of an instruction (R88): a fault is taken with no write committed (R15), and otherwise the writes are
committed and `ip` advances. -/
def finish (s : State) (x : Effect) : Host.Outcome State Fault Refusal :=
  match x with
  | .error k => .next (s.takeFault k)
  | .ok ws => .next (s.retire ws)

/-! Fetch and the parts of the cycle around `exec` -/

/-- Fetch (R81, R42): the record of the six bytes at `ip`, or none when their span is not inside memory. -/
def fetch (s : State) : Option Instruction :=
  let pc := s.regs.ip
  if s.mem.inBounds pc Config.instrBytes then
    let byte := fun k => s.mem.readByte (pc.toNat + k)
    some (Instruction.decode (byte 0) (byte 1) (byte 2) (byte 3) (byte 4) (byte 5))
  else none

/-- A cycle of a latched core changes nothing (R178). -/
def cycleLatched (s : State) : Host.Outcome State Fault Refusal :=
  .next s

/-- A cycle whose fetch fails takes MemoryFault and leaves `last` (R81, R82). -/
def cycleFetchFault (s : State) : Host.Outcome State Fault Refusal :=
  .next (s.takeFault .memoryFault)

/-- A cycle whose instruction has an unknown opcode takes OpcodeFault, with `last` already set (R67, R82). -/
def cycleUnknownOpcode (s : State) : Host.Outcome State Fault Refusal :=
  .next (s.takeFault .opcodeFault)

/-- `last` after a successful fetch (R82). -/
def State.fetched (s : State) (w : Instruction) : State :=
  s.setLast (some w)

/-- The state in which the next fetch can succeed: latch Healthy, and `ip` at 0 when its own six bytes are not inside
memory (log 9). -/
def State.readyToFetch (s : State) : State :=
  let t := s.clearLatch
  if s.mem.inBounds s.regs.ip Config.instrBytes then t else t.setReg .ip 0#32

/-- Bytes placed at `ip`. -/
def State.placeAtIp (s : State) (bytes : List Byte) : State :=
  s.setMem (s.mem.writeBytes s.regs.ip.toNat bytes)

end Sys2Proof.Machine
end

