-- ==== Sys2Proof/Machine/Operands.lean ====
section
/-! DEFINITION. The operand forms of spec/30_encoding.md R71, each with the check R83 makes for it: a register field
(R66), an access size (R68), a memory span (R43, R44), a JUMP target (R161). A meaning names them in the order in which
R83 checks. -/

namespace Sys2Proof.Machine

/-- The register a 4-bit field names; 9 to 15 name none (R66). -/
def Reg.ofField (f : RegField) : Option Reg :=
  Reg.ofIndex f.toNat

/-- A used register field: the register it names, or IndexFault (R66). -/
def withReg (f : RegField) (k : Reg → Effect) : Effect :=
  match Reg.ofField f with
  | some r => k r
  | none => .error .indexFault

/-- The number of bytes of a width code, `2^width`; code 3 names no granularity (R64). -/
def accessBytes (w : WidthField) : Option Nat :=
  if w = 3#2 then none else some (2 ^ w.toNat)

/-- An access size: its number of bytes, or OpcodeFault for code 3 (R68). -/
def withSize (w : WidthField) (k : Nat → Effect) : Effect :=
  match accessBytes w with
  | some n => k n
  | none => .error .opcodeFault

/-- A memory span inside memory, or MemoryFault (R43, R44). -/
def withSpan (s : State) (addr : Word) (n : Nat) (x : Effect) : Effect :=
  if s.mem.inBounds addr n then x else .error .memoryFault

/-- `MemRead(addr, n)` of a span already checked, zero-extended (R43, R102). -/
def State.load (s : State) (addr : Word) (n : Nat) : Word :=
  s.mem.readSpan addr.toNat n

/-- The signed reading of a register, `sint(x[i])` (R28). -/
def Regs.getSigned (x : Regs) (r : Reg) : Int :=
  (x.get r).toInt

/-- A JUMP to a target: the target is checked whether or not the condition holds (R161), and a taken JUMP writes `ip`
(R162, R163). -/
def jumpTo (s : State) (cond : JumpCond) (target : Word) : Effect :=
  withSpan s target Config.instrBytes
    (.ok (if cond.taken (s.regs.get .c) then [.reg .ip target] else []))

end Sys2Proof.Machine
end

