-- ==== Sys2Proof/Machine/Alu.lean ====
section
/-! DEFINITION. The arithmetic and shift functions of spec/42_arithmetic.md and spec/43_logic.md R142, and the shared
shapes of the register instructions. -/

namespace Sys2Proof.Machine

/-- The low 32 bits of the unsigned product (R114). -/
def mulUnsigned (x y : Word) : Word :=
  BitVec.ofNat 32 (x.toNat * y.toNat)

/-- The low 32 bits of the signed product (R115). -/
def mulSigned (x y : Word) : Word :=
  BitVec.ofInt 32 (x.toInt * y.toInt)

/-- `floor(n / d)` on unsigned values (R116). -/
def quotUnsigned (n d : Word) : Word :=
  BitVec.ofNat 32 (n.toNat / d.toNat)

/-- `n mod d` on unsigned values (R116). -/
def remUnsigned (n d : Word) : Word :=
  BitVec.ofNat 32 (n.toNat % d.toNat)

/-- `tdiv(n, d)`, rounded toward zero, modulo `2^32` (R117, R120). -/
def quotSigned (n d : Word) : Word :=
  BitVec.ofInt 32 (n.toInt.tdiv d.toInt)

/-- `n - d * tdiv(n, d)` modulo `2^32` (R117, R120). -/
def remSigned (n d : Word) : Word :=
  BitVec.ofInt 32 (n.toInt - d.toInt * n.toInt.tdiv d.toInt)

/-- `x >> s` of R142: logical, and 0 for an amount of 32 or more. -/
def shiftRight (x amount : Word) : Word :=
  if 32 ≤ amount.toNat then 0#32 else BitVec.ofNat 32 (x.toNat / 2 ^ amount.toNat)

/-- `x << s` of R142: 0 for an amount of 32 or more. -/
def shiftLeft (x amount : Word) : Word :=
  if 32 ≤ amount.toNat then 0#32 else BitVec.ofNat 32 (x.toNat * 2 ^ amount.toNat)

/-- `dest <- dest OP src` (R110, R112). -/
def intoDestReg (op : Word → Word → Word) (rd rs : RegField) (s : State) : Host.Outcome State Fault Refusal :=
  finish s (withReg rd fun dst => withReg rs fun r => .ok [.reg dst (op (s.regs.get dst) (s.regs.get r))])

/-- `dest <- dest OP v` (R111, R113). -/
def intoDestImm (op : Word → Word → Word) (rd : RegField) (v : Word) (s : State) :
    Host.Outcome State Fault Refusal :=
  finish s (withReg rd fun dst => .ok [.reg dst (op (s.regs.get dst) v)])

/-- `x <- dest OP src` for a fixed destination register `x` (R114, R115, R130 to R140). -/
def intoFixedReg (x : Reg) (op : Word → Word → Word) (rd rs : RegField) (s : State) :
    Host.Outcome State Fault Refusal :=
  finish s (withReg rd fun dst => withReg rs fun r => .ok [.reg x (op (s.regs.get dst) (s.regs.get r))])

/-- `x <- dest OP v` for a fixed destination register `x` (R131 to R141). -/
def intoFixedImm (x : Reg) (op : Word → Word → Word) (rd : RegField) (v : Word) (s : State) :
    Host.Outcome State Fault Refusal :=
  finish s (withReg rd fun dst => .ok [.reg x (op (s.regs.get dst) v)])

/-- DIV (R116, R117): both operands are read before either write (R121), a zero divisor faults, the remainder goes to
`e` and the quotient to `f`. -/
def divideInto (rem quot : Word → Word → Word) (rd rs : RegField) (s : State) :
    Host.Outcome State Fault Refusal :=
  finish s (withReg rd fun dst => withReg rs fun r =>
    let n := s.regs.get dst
    let m := s.regs.get r
    if m = 0#32 then .error .divideByZero else .ok [.reg .e (rem n m), .reg .f (quot n m)])

end Sys2Proof.Machine
end

