-- ==== Sys2Proof/Machine/Arithmetic.lean ====
section
/-! DEFINITION. ADD, SUB, MUL and DIV (spec/42_arithmetic.md). All results wrap modulo `2^32` and no flag is written
(R118, R29). -/

namespace Sys2Proof.Machine

/-- R110. -/
def execAddReg (rd rs : RegField) (s : State) : Host.Outcome State Fault Refusal :=
  intoDestReg (fun x y => x + y) rd rs s

/-- R111. -/
def execAddImm (rd : RegField) (v : Word) (s : State) : Host.Outcome State Fault Refusal :=
  intoDestImm (fun x y => x + y) rd v s

/-- R112. -/
def execSubReg (rd rs : RegField) (s : State) : Host.Outcome State Fault Refusal :=
  intoDestReg (fun x y => x - y) rd rs s

/-- R113. -/
def execSubImm (rd : RegField) (v : Word) (s : State) : Host.Outcome State Fault Refusal :=
  intoDestImm (fun x y => x - y) rd v s

/-- R114: the product to `e` only (R119). -/
def execMulu (rd rs : RegField) (s : State) : Host.Outcome State Fault Refusal :=
  intoFixedReg .e mulUnsigned rd rs s

/-- R115: the product to `e` only (R119). -/
def execMuls (rd rs : RegField) (s : State) : Host.Outcome State Fault Refusal :=
  intoFixedReg .e mulSigned rd rs s

/-- R116. -/
def execDivu (rd rs : RegField) (s : State) : Host.Outcome State Fault Refusal :=
  divideInto remUnsigned quotUnsigned rd rs s

/-- R117. -/
def execDivs (rd rs : RegField) (s : State) : Host.Outcome State Fault Refusal :=
  divideInto remSigned quotSigned rd rs s

end Sys2Proof.Machine
end

