-- ==== Sys2Proof/Machine/Control.lean ====
section
/-! DEFINITION. JUMP with a register or an immediate target (spec/45_control.md). -/

namespace Sys2Proof.Machine

/-- JUMP to the value of `dest` (R162). -/
def jumpReg (cond : JumpCond) (rd : RegField) (s : State) : Host.Outcome State Fault Refusal :=
  finish s (withReg rd fun dst => jumpTo s cond (s.regs.get dst))

/-- JUMP to the value field (R163). -/
def jumpImm (cond : JumpCond) (v : Word) (s : State) : Host.Outcome State Fault Refusal :=
  finish s (jumpTo s cond v)

/-- R162, condition JZ (R160). -/
def execJzReg (rd : RegField) (s : State) : Host.Outcome State Fault Refusal :=
  jumpReg .zero rd s

/-- R163, condition JZ (R160). -/
def execJzImm (v : Word) (s : State) : Host.Outcome State Fault Refusal :=
  jumpImm .zero v s

/-- R162, condition JNS (R160). -/
def execJnsReg (rd : RegField) (s : State) : Host.Outcome State Fault Refusal :=
  jumpReg .notSign rd s

/-- R163, condition JNS (R160). -/
def execJnsImm (v : Word) (s : State) : Host.Outcome State Fault Refusal :=
  jumpImm .notSign v s

/-- R162, condition JS (R160). -/
def execJsReg (rd : RegField) (s : State) : Host.Outcome State Fault Refusal :=
  jumpReg .sign rd s

/-- R163, condition JS (R160). -/
def execJsImm (v : Word) (s : State) : Host.Outcome State Fault Refusal :=
  jumpImm .sign v s

/-- R162, condition JMP (R160). -/
def execJmpReg (rd : RegField) (s : State) : Host.Outcome State Fault Refusal :=
  jumpReg .always rd s

/-- R163, condition JMP (R160). -/
def execJmpImm (v : Word) (s : State) : Host.Outcome State Fault Refusal :=
  jumpImm .always v s

end Sys2Proof.Machine
end

