-- ==== Sys2Proof/Machine/DataMovement.lean ====
section
/-! DEFINITION. NOP, LOAD and STORE (spec/41_data_movement.md). -/

namespace Sys2Proof.Machine

/-- R100: "`writes := []`". -/
def execNop (s : State) : Host.Outcome State Fault Refusal :=
  finish s (.ok [])

/-- R101: the whole 32-bit value to `dest`. -/
def execLoadImm (rd : RegField) (v : Word) (s : State) : Host.Outcome State Fault Refusal :=
  finish s (withReg rd fun dst => .ok [.reg dst v])

/-- R102: 1, 2 or 4 bytes at the absolute address `v`, zero-extended, to `dest`. -/
def execLoadMem (rd : RegField) (w : WidthField) (v : Word) (s : State) : Host.Outcome State Fault Refusal :=
  finish s (withReg rd fun dst => withSize w fun n => withSpan s v n (.ok [.reg dst (s.load v n)]))

/-- R103: a register copy; no memory is touched. -/
def execStoreReg (rd rs : RegField) (s : State) : Host.Outcome State Fault Refusal :=
  finish s (withReg rd fun dst => withReg rs fun r => .ok [.reg dst (s.regs.get r)])

/-- R104: the low 1, 2 or 4 bytes of `dest` to the absolute address `v`. -/
def execStoreMem (rd : RegField) (w : WidthField) (v : Word) (s : State) : Host.Outcome State Fault Refusal :=
  finish s (withReg rd fun dst => withSize w fun n => withSpan s v n (.ok [.mem v n (s.regs.get dst)]))

end Sys2Proof.Machine
end

