-- ==== Sys2Proof/Machine/Logic.lean ====
section
/-! DEFINITION. OR, AND, XOR, NOT, SHR and SHL (spec/43_logic.md). The result goes to `c` whatever `dest` names. -/

namespace Sys2Proof.Machine

/-- R130. -/
def execOrReg (rd rs : RegField) (s : State) : Host.Outcome State Fault Refusal :=
  intoFixedReg .c (fun x y => x ||| y) rd rs s

/-- R131. -/
def execOrImm (rd : RegField) (v : Word) (s : State) : Host.Outcome State Fault Refusal :=
  intoFixedImm .c (fun x y => x ||| y) rd v s

/-- R132. -/
def execAndReg (rd rs : RegField) (s : State) : Host.Outcome State Fault Refusal :=
  intoFixedReg .c (fun x y => x &&& y) rd rs s

/-- R133. -/
def execAndImm (rd : RegField) (v : Word) (s : State) : Host.Outcome State Fault Refusal :=
  intoFixedImm .c (fun x y => x &&& y) rd v s

/-- R134. -/
def execXorReg (rd rs : RegField) (s : State) : Host.Outcome State Fault Refusal :=
  intoFixedReg .c (fun x y => x ^^^ y) rd rs s

/-- R135. -/
def execXorImm (rd : RegField) (v : Word) (s : State) : Host.Outcome State Fault Refusal :=
  intoFixedImm .c (fun x y => x ^^^ y) rd v s

/-- R136: `src` is not used. -/
def execNotReg (rd : RegField) (s : State) : Host.Outcome State Fault Refusal :=
  finish s (withReg rd fun dst => .ok [.reg .c (~~~ s.regs.get dst)])

/-- R137: no register is read. -/
def execNotImm (v : Word) (s : State) : Host.Outcome State Fault Refusal :=
  finish s (.ok [.reg .c (~~~ v)])

/-- R138. -/
def execShrReg (rd rs : RegField) (s : State) : Host.Outcome State Fault Refusal :=
  intoFixedReg .c shiftRight rd rs s

/-- R139. -/
def execShrImm (rd : RegField) (v : Word) (s : State) : Host.Outcome State Fault Refusal :=
  intoFixedImm .c shiftRight rd v s

/-- R140. -/
def execShlReg (rd rs : RegField) (s : State) : Host.Outcome State Fault Refusal :=
  intoFixedReg .c shiftLeft rd rs s

/-- R141. -/
def execShlImm (rd : RegField) (v : Word) (s : State) : Host.Outcome State Fault Refusal :=
  intoFixedImm .c shiftLeft rd v s

end Sys2Proof.Machine
end

