-- ==== Sys2Proof/Machine/Stack.lean ====
section
/-! DEFINITION. PUSH and POP (spec/44_stack.md). Both decrement `sp` by 4: they are no last-in-first-out pair (R152). -/

namespace Sys2Proof.Machine

/-- R150: the low 1, 2 or 4 bytes of `dest` at `sp`, then `sp - 4` whatever the size. -/
def execPush (rd : RegField) (w : WidthField) (s : State) : Host.Outcome State Fault Refusal :=
  let sp := s.regs.get .sp
  finish s (withReg rd fun dst => withSize w fun n =>
    withSpan s sp n (.ok [.mem sp n (s.regs.get dst), .reg .sp (sp - Config.stackStep)]))

/-- R151: `sp - 4` first, then the dword there to `dest`; when `dest` is `sp` the dword wins. -/
def execPop (rd : RegField) (s : State) : Host.Outcome State Fault Refusal :=
  let newSp := s.regs.get .sp - Config.stackStep
  finish s (withReg rd fun dst =>
    withSpan s newSp 4 (.ok [.reg .sp newSp, .reg dst (s.load newSp 4)]))

end Sys2Proof.Machine
end

