-- ==== Sys2Proof/Machine/Dispatch.lean ====
section
/-! DEFINITION. The meaning of every instruction: one arm per constructor of Instr (spec/30_encoding.md R74). -/

namespace Sys2Proof.Machine

def exec (i : Instr) (s : State) : Host.Outcome State Fault Refusal :=
  match i with
  | .nop => Sys2Proof.Machine.execNop s
  | .loadImm rd v => Sys2Proof.Machine.execLoadImm rd v s
  | .loadMem rd w v => Sys2Proof.Machine.execLoadMem rd w v s
  | .storeReg rd rs => Sys2Proof.Machine.execStoreReg rd rs s
  | .storeMem rd w v => Sys2Proof.Machine.execStoreMem rd w v s
  | .addReg rd rs => Sys2Proof.Machine.execAddReg rd rs s
  | .addImm rd v => Sys2Proof.Machine.execAddImm rd v s
  | .subReg rd rs => Sys2Proof.Machine.execSubReg rd rs s
  | .subImm rd v => Sys2Proof.Machine.execSubImm rd v s
  | .mulu rd rs => Sys2Proof.Machine.execMulu rd rs s
  | .muls rd rs => Sys2Proof.Machine.execMuls rd rs s
  | .divu rd rs => Sys2Proof.Machine.execDivu rd rs s
  | .divs rd rs => Sys2Proof.Machine.execDivs rd rs s
  | .orReg rd rs => Sys2Proof.Machine.execOrReg rd rs s
  | .orImm rd v => Sys2Proof.Machine.execOrImm rd v s
  | .andReg rd rs => Sys2Proof.Machine.execAndReg rd rs s
  | .andImm rd v => Sys2Proof.Machine.execAndImm rd v s
  | .xorReg rd rs => Sys2Proof.Machine.execXorReg rd rs s
  | .xorImm rd v => Sys2Proof.Machine.execXorImm rd v s
  | .notReg rd => Sys2Proof.Machine.execNotReg rd s
  | .notImm v => Sys2Proof.Machine.execNotImm v s
  | .shrReg rd rs => Sys2Proof.Machine.execShrReg rd rs s
  | .shrImm rd v => Sys2Proof.Machine.execShrImm rd v s
  | .shlReg rd rs => Sys2Proof.Machine.execShlReg rd rs s
  | .shlImm rd v => Sys2Proof.Machine.execShlImm rd v s
  | .pop rd => Sys2Proof.Machine.execPop rd s
  | .push rd w => Sys2Proof.Machine.execPush rd w s
  | .jzReg rd => Sys2Proof.Machine.execJzReg rd s
  | .jnsReg rd => Sys2Proof.Machine.execJnsReg rd s
  | .jsReg rd => Sys2Proof.Machine.execJsReg rd s
  | .jmpReg rd => Sys2Proof.Machine.execJmpReg rd s
  | .jzImm v => Sys2Proof.Machine.execJzImm v s
  | .jnsImm v => Sys2Proof.Machine.execJnsImm v s
  | .jsImm v => Sys2Proof.Machine.execJsImm v s
  | .jmpImm v => Sys2Proof.Machine.execJmpImm v s

end Sys2Proof.Machine
end

