-- ==== Sys2Proof/Machine/Step.lean ====
section
/-! DEFINITION. One cycle of the core (spec/40_cycle.md R80, R88), and the placing of an instruction where the next
cycle fetches it. -/

namespace Sys2Proof.Machine

/-- The cycle of R88: the latch check, fetch, decode, and the instruction's own meaning, which commits its writes and
advances `ip`, or takes its fault. The outcome Fault(k) of R88 is the latch of the state it gives (log 3). -/
def step (s : State) : Host.Outcome State Fault Refusal :=
  match s.latch with
  | some _ => cycleLatched s
  | none =>
    match fetch s with
    | none => cycleFetchFault s
    | some w =>
      match w.toInstr with
      | .error _ => cycleUnknownOpcode (s.fetched w)
      | .ok i => exec i (s.fetched w)

/-- The state with the six bytes of a table word at `ip`, ready for the next cycle to fetch them (log 9). -/
def State.withFetchWord (s : State) (nbits w : Nat) : State :=
  s.readyToFetch.placeAtIp (tableWordBytes nbits w)

end Sys2Proof.Machine
end

