-- ==== Sys2Proof/Machine/HostPort.lean ====
section
/-! DEFINITION. The host's operations on the core (spec/70_reset_and_hazards.md R190 to R197, spec/60_exceptions.md
R186): power-on, image load, the cycle with its outcome, the diagnostic read, `reset()` (`State.clearLatch`) and the
register test access. -/

namespace Sys2Proof.Machine

/-- The memory of `capacity` bytes that holds `init` (R190: `INIT_MEM`). -/
def Memory.ofInit (capacity : Nat) (init : Nat → Byte) : Memory where
  capacity := capacity
  cells := (List.range capacity).filterMap fun a =>
    if init a = Config.unlistedByte then none else some (a, init a)

/-- Power-on with given `MEM_CAPACITY` and `INIT_MEM` (R190, R193). -/
def State.powerOn (capacity : Nat) (init : Nat → Byte) : State where
  regs := Regs.zero
  mem := Memory.ofInit capacity init
  latch := none
  last := none

/-- The output of a cycle (R80): `Continue` or `Fault(k)`. `Halt` is never returned (decision D14). -/
inductive CycleOutcome where
  /-- `Continue` -/
  | continued
  /-- `Fault(k)` -/
  | faulted (k : Fault)
deriving DecidableEq, Repr

/-- The outcome of the cycle that gave this state: `Fault(k)` exactly when the latch holds `k` (R88; log 3). -/
def State.outcome (s : State) : CycleOutcome :=
  match s.latch with
  | none => .continued
  | some k => .faulted k

/-- `load_image(bytes, offset)` (R196): all or nothing, and not latching. -/
def State.loadImage (s : State) (bytes : List Byte) (offset : Nat) : Host.Outcome State Fault Refusal :=
  if offset + bytes.length ≤ s.mem.capacity then .next (s.setMem (s.mem.writeBytes offset bytes))
  else .fault .memoryFault

/-- `get(index)` (R197). -/
def State.testGet (s : State) (index : Nat) : Except Fault Word :=
  match Reg.ofIndex index with
  | some r => .ok (s.regs.get r)
  | none => .error .indexFault

/-- `get_signed(index)` (R197, R28). -/
def State.testGetSigned (s : State) (index : Nat) : Except Fault Int :=
  match Reg.ofIndex index with
  | some r => .ok (s.regs.getSigned r)
  | none => .error .indexFault

/-- `set(index, v)` (R197): it does not latch. -/
def State.testSet (s : State) (index : Nat) (v : Word) : Host.Outcome State Fault Refusal :=
  match Reg.ofIndex index with
  | some r => .next (s.setReg r v)
  | none => .fault .indexFault

/-- What the diagnostic port shows (R186): the nine registers, `last` and the latch. -/
structure Diagnostic where
  regs : Regs
  last : Option Instruction
  latch : Option Fault
deriving DecidableEq, Repr

/-- The diagnostic read (R186); reading has no effect. -/
def State.diagnostic (s : State) : Diagnostic :=
  ⟨s.regs, s.last, s.latch⟩

/-- A powered-on core in the host's hands: its state, and whether a cycle has run, which decides whether `load_image` is
allowed (R193, R195). The second is the host protocol's, no state of the core (R33; log 8). -/
structure Session where
  core : State
  cycled : Bool
deriving DecidableEq, Repr

/-- Power-on, "once, first" (R193). -/
def Session.powerOn (capacity : Nat) (init : Nat → Byte) : Session :=
  ⟨State.powerOn capacity init, false⟩

/-- `load_image`, before the first cycle only: afterwards it is refused (R195, R196). -/
def Session.loadImage (h : Session) (bytes : List Byte) (offset : Nat) : Host.Outcome Session Fault Refusal :=
  if h.cycled then .refused .loadAfterFirstCycle
  else
    match h.core.loadImage bytes offset with
    | .next s => .next { h with core := s }
    | .fault k => .fault k
    | .refused r => .refused r

/-- `cycle` (R193): one cycle, and its outcome. -/
def Session.cycle (h : Session) : Host.Outcome (Session × CycleOutcome) Fault Refusal :=
  match step h.core with
  | .next s => .next (⟨s, true⟩, s.outcome)
  | .fault k => .fault k
  | .refused r => .refused r

/-- `reset()` (R192, R193). -/
def Session.resetLatch (h : Session) : Session :=
  { h with core := h.core.clearLatch }

/-- The register test access `set` (R193, R197). -/
def Session.testSet (h : Session) (index : Nat) (v : Word) : Host.Outcome Session Fault Refusal :=
  match h.core.testSet index v with
  | .next s => .next { h with core := s }
  | .fault k => .fault k
  | .refused r => .refused r

end Sys2Proof.Machine
end

