-- ==== Sys2Proof/WellFormed.lean ====
section
/-! DEFINITION. Which instructions are legal encodings: every used register field names a register (R66) and the width
code of a memory access names a size (R68); and what R69's table says each instruction writes. An ill-formed instruction still executes: it faults. -/

namespace Sys2Proof

/-- The register fields an instruction uses: the ones R69's table marks as read or written. -/
def Instr.usedFields : Instr → List RegField
  | .nop => []
  | .loadImm rd _ => [rd]
  | .loadMem rd _ _ => [rd]
  | .storeReg rd rs => [rd, rs]
  | .storeMem rd _ _ => [rd]
  | .addReg rd rs => [rd, rs]
  | .addImm rd _ => [rd]
  | .subReg rd rs => [rd, rs]
  | .subImm rd _ => [rd]
  | .mulu rd rs => [rd, rs]
  | .muls rd rs => [rd, rs]
  | .divu rd rs => [rd, rs]
  | .divs rd rs => [rd, rs]
  | .orReg rd rs => [rd, rs]
  | .orImm rd _ => [rd]
  | .andReg rd rs => [rd, rs]
  | .andImm rd _ => [rd]
  | .xorReg rd rs => [rd, rs]
  | .xorImm rd _ => [rd]
  | .notReg rd => [rd]
  | .notImm _ => []
  | .shrReg rd rs => [rd, rs]
  | .shrImm rd _ => [rd]
  | .shlReg rd rs => [rd, rs]
  | .shlImm rd _ => [rd]
  | .pop rd => [rd]
  | .push rd _ => [rd]
  | .jzReg rd => [rd]
  | .jnsReg rd => [rd]
  | .jsReg rd => [rd]
  | .jmpReg rd => [rd]
  | .jzImm _ => []
  | .jnsImm _ => []
  | .jsImm _ => []
  | .jmpImm _ => []

/-- The width field of an instruction that accesses memory by it (R64): LOAD.mem, STORE.mem and PUSH. -/
def Instr.sizeField : Instr → Option WidthField
  | .loadMem _ w _ => some w
  | .storeMem _ w _ => some w
  | .push _ w => some w
  | .nop | .loadImm _ _ | .storeReg _ _ | .addReg _ _ | .addImm _ _ | .subReg _ _ | .subImm _ _ => none
  | .mulu _ _ | .muls _ _ | .divu _ _ | .divs _ _ => none
  | .orReg _ _ | .orImm _ _ | .andReg _ _ | .andImm _ _ | .xorReg _ _ | .xorImm _ _ => none
  | .notReg _ | .notImm _ | .shrReg _ _ | .shrImm _ _ | .shlReg _ _ | .shlImm _ _ => none
  | .pop _ | .jzReg _ | .jnsReg _ | .jsReg _ | .jmpReg _ => none
  | .jzImm _ | .jnsImm _ | .jsImm _ | .jmpImm _ => none

/-- The `dest` field of an instruction that writes the register it names: the "written" entries of R69's table. -/
def Instr.writtenField : Instr → Option RegField
  | .loadImm rd _ => some rd
  | .loadMem rd _ _ => some rd
  | .storeReg rd _ => some rd
  | .addReg rd _ => some rd
  | .addImm rd _ => some rd
  | .subReg rd _ => some rd
  | .subImm rd _ => some rd
  | .pop rd => some rd
  | .nop | .storeMem _ _ _ | .push _ _ => none
  | .mulu _ _ | .muls _ _ | .divu _ _ | .divs _ _ => none
  | .orReg _ _ | .orImm _ _ | .andReg _ _ | .andImm _ _ | .xorReg _ _ | .xorImm _ _ => none
  | .notReg _ | .notImm _ | .shrReg _ _ | .shrImm _ _ | .shlReg _ _ | .shlImm _ _ => none
  | .jzReg _ | .jnsReg _ | .jsReg _ | .jmpReg _ => none
  | .jzImm _ | .jnsImm _ | .jsImm _ | .jmpImm _ => none

/-- The eight JUMP instructions, opcode 14 (R160 to R163). -/
def Instr.isJump : Instr → Bool
  | .jzReg _ | .jnsReg _ | .jsReg _ | .jmpReg _ => true
  | .jzImm _ | .jnsImm _ | .jsImm _ | .jmpImm _ => true
  | .nop | .loadImm _ _ | .loadMem _ _ _ | .storeReg _ _ | .storeMem _ _ _ => false
  | .addReg _ _ | .addImm _ _ | .subReg _ _ | .subImm _ _ => false
  | .mulu _ _ | .muls _ _ | .divu _ _ | .divs _ _ => false
  | .orReg _ _ | .orImm _ _ | .andReg _ _ | .andImm _ _ | .xorReg _ _ | .xorImm _ _ => false
  | .notReg _ | .notImm _ | .shrReg _ _ | .shrImm _ _ | .shlReg _ _ | .shlImm _ _ => false
  | .pop _ | .push _ _ => false

/-- The two instructions that write memory: STORE.mem (R104) and PUSH (R150). -/
def Instr.storesMemory : Instr → Bool
  | .storeMem _ _ _ | .push _ _ => true
  | .nop | .loadImm _ _ | .loadMem _ _ _ | .storeReg _ _ => false
  | .addReg _ _ | .addImm _ _ | .subReg _ _ | .subImm _ _ => false
  | .mulu _ _ | .muls _ _ | .divu _ _ | .divs _ _ => false
  | .orReg _ _ | .orImm _ _ | .andReg _ _ | .andImm _ _ | .xorReg _ _ | .xorImm _ _ => false
  | .notReg _ | .notImm _ | .shrReg _ _ | .shrImm _ _ | .shlReg _ _ | .shlImm _ _ => false
  | .pop _ | .jzReg _ | .jnsReg _ | .jsReg _ | .jmpReg _ => false
  | .jzImm _ | .jnsImm _ | .jsImm _ | .jmpImm _ => false

/-- Every used register field is 0 to 8 (R66), and a width field that selects a size is not 3 (R68). -/
def Instr.wellFormed (i : Instr) : Bool :=
  i.usedFields.all (fun r => r.toNat ≤ 8) && i.sizeField.all (fun w => w != 3#2)

end Sys2Proof
end

