-- ==== Sys2Proof/Safety.lean ====
section
/-! DEFINITION. The invariant of the core, what counts as a safe run, and the words the statements use for what an
instruction does to a state: its writes, its frame, and its fault. -/

namespace Sys2Proof.Machine

/-- What every cycle keeps and power-on gives: the memory in canonical form, its capacity in the range of R8, and a
latched fault other than a fetch's MemoryFault only with an instruction in `last` (R82: the instruction was fetched). -/
abbrev State.Inv (s : State) : Prop :=
  s.mem.wf ∧ Config.minCapacity ≤ s.mem.capacity ∧ s.mem.capacity ≤ Config.maxCapacity ∧
    (s.latch = none ∨ s.latch = some .memoryFault ∨ s.last ≠ none)

/-- The six bytes of R61 and R62 with this opcode and mode, whatever the other four fields hold, decode to the
instruction `i` makes of those fields: header `opcode | mode<<5 | width<<6`, register byte `dest | src<<4`, and the value
little-endian. -/
def DecodesTo (opcode : BitVec 5) (mode : BitVec 1) (i : WidthField → RegField → RegField → Word → Instr) : Prop :=
  ∀ (width : WidthField) (dest src : RegField) (value : Word),
    decode [width ++ mode ++ opcode, src ++ dest, value.extractLsb' 0 8, value.extractLsb' 8 8,
      value.extractLsb' 16 8, value.extractLsb' 24 8] = .ok (i width dest src value, [])

/-- A safe run of `n` cycles: none of them returns a fault, which is to say that the latch is Healthy at the end (R178:
a latched fault stays). -/
def RunsSafely (n : Nat) (s : State) : Prop :=
  ∃ t, Host.Core.run Sys2Proof.core n s = .next t ∧ t.latch = none

/-- The value a list of register writes leaves in a register: that of the last write to it (R14, R85). -/
def lastWrite : List (Reg × Word) → Reg → Option Word
  | [], _ => none
  | (r, v) :: rest, q =>
    match lastWrite rest q with
    | some u => some u
    | none => if r = q then some v else none

/-- The same memory, byte by byte. -/
def SameMemory (s t : State) : Prop :=
  t.mem.capacity = s.mem.capacity ∧ ∀ a, t.mem.readByte a = s.mem.readByte a

/-- The memory after a store of the low `n` bytes of `v` at `addr`: those bytes little-endian (R41), every other byte
and the capacity as before. -/
def StoredAt (s t : State) (addr : Word) (n : Nat) (v : Word) : Prop :=
  t.mem.capacity = s.mem.capacity ∧
    (∀ k, k < n → t.mem.readByte (addr.toNat + k) = v.extractLsb' (8 * k) 8) ∧
    (∀ a, (∀ k, k < n → a ≠ addr.toNat + k) → t.mem.readByte a = s.mem.readByte a)

/-- `i` runs from `s` to `t` and its register writes are exactly `ws`: each register holds the last value written to it,
every register not written is unchanged but for `ip`, and latch and `last` are unchanged. -/
def WritesExactly (i : Instr) (s t : State) (ws : List (Reg × Word)) : Prop :=
  exec i s = .next t ∧ t.latch = s.latch ∧ t.last = s.last ∧
    (∀ r v, lastWrite ws r = some v → t.regs.get r = v) ∧
    (∀ r, r ≠ .ip → lastWrite ws r = none → t.regs.get r = s.regs.get r)

/-- `i` completes at `s` with exactly the register writes `ws`, and changes no byte of memory. -/
def CompletesInRegs (i : Instr) (s : State) (ws : List (Reg × Word)) : Prop :=
  ∃ t, WritesExactly i s t ws ∧ SameMemory s t

/-- `i` completes at `s` with exactly the register writes `ws` and a store of the low `n` bytes of `v` at `addr`. -/
def CompletesStoring (i : Instr) (s : State) (ws : List (Reg × Word)) (addr : Word) (n : Nat) (v : Word) : Prop :=
  ∃ t, WritesExactly i s t ws ∧ StoredAt s t addr n v

/-- `i` raises fault `k` at `s`: the latch becomes Faulted(k) and nothing else changes (R15, R177). -/
def TakesFault (i : Instr) (s : State) (k : Fault) : Prop :=
  exec i s = .next { s with latch := some k }

/-- What a JUMP `i` does at `s` with this target (R160 to R163): outside memory it raises MemoryFault whether or not it
is taken; inside, a taken JUMP writes `ip` and nothing else, and an untaken one writes nothing, so `ip` advances by 6. -/
def JumpsTo (i : Instr) (s : State) (target : Word) (taken : Prop) : Prop :=
  (target.toNat + 6 ≤ s.mem.capacity →
    (taken → CompletesInRegs i s [(.ip, target)]) ∧
    (¬ taken → ∃ t, WritesExactly i s t [] ∧ SameMemory s t ∧ t.regs.ip = s.regs.ip + 6#32)) ∧
  (¬ target.toNat + 6 ≤ s.mem.capacity → TakesFault i s .memoryFault)

end Sys2Proof.Machine
end

