-- ==== Sys2Proof/Certificates/Slice0/Obligations.lean ====
section
/-! DEFINITION. The statements for the provers. A statement's docstring names the rule of spec/ it formalises. Where a
clause rests on a decision the spec marks as its own (D<n> of spec/92_eei_decisions.md), on an inference the spec marks
derived, or on a choice of the model (log <n>), the docstring says so. -/

open Sys2Proof Sys2Proof.Machine

/-! Data movement -/

/-- R100: opcode 0 in either mode is NOP; it always completes, writes nothing, and `ip` goes to the next word. -/
def Obligations.NopChangesNothing : Prop :=
  (∀ mode, DecodesTo 0#5 mode fun _ _ _ _ => .nop) ∧
  ∀ s : State, ∃ t, WritesExactly .nop s t [] ∧ SameMemory s t ∧ t.regs.ip = s.regs.ip + 6#32

/-- LOAD immediate (R101; that the width field is ignored and does not narrow the value is the spec's decision D8): the
whole 32-bit value goes to `dest`, and a `dest` of 9 to 15 raises IndexFault (decision D6). -/
def Obligations.LoadImmediateWritesDest : Prop :=
  DecodesTo 1#5 0#1 (fun _ dest _ value => .loadImm dest value) ∧
  ∀ (rd : RegField) (v : Word) (s : State),
    match Reg.ofField rd with
    | some dst => CompletesInRegs (.loadImm rd v) s [(dst, v)]
    | none => TakesFault (.loadImm rd v) s .indexFault

/-- LOAD memory (R102; the size codes are the spec's decision D5, the zero extension D7, the order of the checks D24):
IndexFault, then OpcodeFault for width 3, then MemoryFault outside memory; otherwise `dest` gets the bytes at `v`,
little-endian, with zeros above. -/
def Obligations.LoadMemoryZeroExtends : Prop :=
  DecodesTo 1#5 1#1 (fun width dest _ value => .loadMem dest width value) ∧
  ∀ (rd : RegField) (w : WidthField) (v : Word) (s : State),
    match Reg.ofField rd with
    | none => TakesFault (.loadMem rd w v) s .indexFault
    | some dst =>
      if w = 3#2 then TakesFault (.loadMem rd w v) s .opcodeFault
      else if v.toNat + 2 ^ w.toNat ≤ s.mem.capacity then
        ∃ x : Word, CompletesInRegs (.loadMem rd w v) s [(dst, x)] ∧
          ∀ k, k < 4 → x.extractLsb' (8 * k) 8 = if k < 2 ^ w.toNat then s.mem.readByte (v.toNat + k) else 0#8
      else TakesFault (.loadMem rd w v) s .memoryFault

/-- R103: STORE register copies `src` into `dest`, touches no memory, and raises IndexFault for a field of 9 to 15. -/
def Obligations.StoreRegisterCopies : Prop :=
  DecodesTo 2#5 0#1 (fun _ dest src _ => .storeReg dest src) ∧
  ∀ (rd rs : RegField) (s : State),
    match Reg.ofField rd, Reg.ofField rs with
    | some dst, some src => CompletesInRegs (.storeReg rd rs) s [(dst, s.regs.get src)]
    | _, _ => TakesFault (.storeReg rd rs) s .indexFault

/-- STORE memory (R104; the size codes are the spec's decision D5, the truncation D7, the order of the checks D24), in
every state whose memory has the canonical form (log 2): the low bytes of `dest` stand little-endian at `v` and no other byte
and no register changes. -/
def Obligations.StoreMemoryWritesLowBytes : Prop :=
  DecodesTo 2#5 1#1 (fun width dest _ value => .storeMem dest width value) ∧
  ∀ (rd : RegField) (w : WidthField) (v : Word) (s : State), s.mem.wf →
    match Reg.ofField rd with
    | none => TakesFault (.storeMem rd w v) s .indexFault
    | some dst =>
      if w = 3#2 then TakesFault (.storeMem rd w v) s .opcodeFault
      else if v.toNat + 2 ^ w.toNat ≤ s.mem.capacity then
        CompletesStoring (.storeMem rd w v) s [] v (2 ^ w.toNat) (s.regs.get dst)
      else TakesFault (.storeMem rd w v) s .memoryFault

/-! Arithmetic -/

/-- R110, R112: ADD and SUB with a register write `dest` with the sum or difference modulo `2^32` and nothing else, and
raise IndexFault for a field of 9 to 15. -/
def Obligations.AddSubRegisterForms : Prop :=
  DecodesTo 3#5 0#1 (fun _ dest src _ => .addReg dest src) ∧
  DecodesTo 4#5 0#1 (fun _ dest src _ => .subReg dest src) ∧
  ∀ (rd rs : RegField) (s : State),
    match Reg.ofField rd, Reg.ofField rs with
    | some dst, some src =>
      CompletesInRegs (.addReg rd rs) s [(dst, s.regs.get dst + s.regs.get src)] ∧
      CompletesInRegs (.subReg rd rs) s [(dst, s.regs.get dst - s.regs.get src)]
    | _, _ => TakesFault (.addReg rd rs) s .indexFault ∧ TakesFault (.subReg rd rs) s .indexFault

/-- R111, R113: ADD and SUB with an immediate. -/
def Obligations.AddSubImmediateForms : Prop :=
  DecodesTo 3#5 1#1 (fun _ dest _ value => .addImm dest value) ∧
  DecodesTo 4#5 1#1 (fun _ dest _ value => .subImm dest value) ∧
  ∀ (rd : RegField) (v : Word) (s : State),
    match Reg.ofField rd with
    | some dst =>
      CompletesInRegs (.addImm rd v) s [(dst, s.regs.get dst + v)] ∧
      CompletesInRegs (.subImm rd v) s [(dst, s.regs.get dst - v)]
    | none => TakesFault (.addImm rd v) s .indexFault ∧ TakesFault (.subImm rd v) s .indexFault

/-- R114: MULU writes the low 32 bits of the product to `e` and nothing else, `f` among it. -/
def Obligations.MultiplyUnsigned : Prop :=
  DecodesTo 5#5 0#1 (fun _ dest src _ => .mulu dest src) ∧
  ∀ (rd rs : RegField) (s : State),
    match Reg.ofField rd, Reg.ofField rs with
    | some dst, some src => CompletesInRegs (.mulu rd rs) s [(.e, s.regs.get dst * s.regs.get src)]
    | _, _ => TakesFault (.mulu rd rs) s .indexFault

/-- MULS (R115, whose corner case the spec marks derived): the signed product modulo `2^32` to `e` and nothing else;
that `f` is left is also the spec's decision D15. -/
def Obligations.MultiplySigned : Prop :=
  DecodesTo 5#5 1#1 (fun _ dest src _ => .muls dest src) ∧
  ∀ (rd rs : RegField) (s : State),
    match Reg.ofField rd, Reg.ofField rs with
    | some dst, some src =>
      CompletesInRegs (.muls rd rs) s [(.e, BitVec.ofInt 32 ((s.regs.get dst).toInt * (s.regs.get src).toInt))]
    | _, _ => TakesFault (.muls rd rs) s .indexFault

/-- MULS writes the same `e` as MULU for every pair of operands (R115's corner case, which the spec marks derived): the
two are one function of the state. -/
def Obligations.MulSignednessIrrelevant : Prop :=
  ∀ (rd rs : RegField) (s : State), exec (.muls rd rs) s = exec (.mulu rd rs) s

/-- R116: DIVU writes the unsigned remainder to `e` and the unsigned quotient to `f`, both of the operands as they stood
before; a zero divisor raises DivideByZero, after the check of the register fields. -/
def Obligations.DivideUnsigned : Prop :=
  DecodesTo 6#5 0#1 (fun _ dest src _ => .divu dest src) ∧
  ∀ (rd rs : RegField) (s : State),
    match Reg.ofField rd, Reg.ofField rs with
    | some dst, some src =>
      if s.regs.get src = 0#32 then TakesFault (.divu rd rs) s .divideByZero
      else CompletesInRegs (.divu rd rs) s
        [(.e, s.regs.get dst % s.regs.get src), (.f, s.regs.get dst / s.regs.get src)]
    | _, _ => TakesFault (.divu rd rs) s .indexFault

/-- DIVS (R117; the rounding toward zero is the spec's decision D16): remainder to `e`, quotient to `f`, modulo `2^32`,
and DivideByZero for a zero divisor. -/
def Obligations.DivideSigned : Prop :=
  DecodesTo 6#5 1#1 (fun _ dest src _ => .divs dest src) ∧
  ∀ (rd rs : RegField) (s : State),
    match Reg.ofField rd, Reg.ofField rs with
    | some dst, some src =>
      if s.regs.get src = 0#32 then TakesFault (.divs rd rs) s .divideByZero
      else CompletesInRegs (.divs rd rs) s
        [(.e, (s.regs.get dst).srem (s.regs.get src)), (.f, (s.regs.get dst).sdiv (s.regs.get src))]
    | _, _ => TakesFault (.divs rd rs) s .indexFault

/-- The division law of R120 (marked derived; the rounding is decision D16): after DIVS with a non-zero divisor,
`n = d*q + r`, `|r| < |d|`, and `r` has the sign of `n` or is 0; but for `-2^31 / -1`, where `f` is `0x80000000` and
`e` is 0. -/
def Obligations.SignedDivisionLaw : Prop :=
  ∀ (rd rs : RegField) (dst src : Reg) (s t : State),
    Reg.ofField rd = some dst → Reg.ofField rs = some src → s.regs.get src ≠ 0#32 →
    exec (.divs rd rs) s = .next t →
    if (s.regs.get dst).toInt = -2147483648 ∧ (s.regs.get src).toInt = -1 then
      t.regs.f = 0x80000000#32 ∧ t.regs.e = 0#32
    else
      (s.regs.get dst).toInt = (s.regs.get src).toInt * t.regs.f.toInt + t.regs.e.toInt ∧
      t.regs.e.toInt.natAbs < (s.regs.get src).toInt.natAbs ∧
      (0 ≤ (s.regs.get dst).toInt → 0 ≤ t.regs.e.toInt) ∧ ((s.regs.get dst).toInt ≤ 0 → t.regs.e.toInt ≤ 0)

/-- R174: DIV in either mode raises DivideByZero when `x[src]` is 0, recording only its kind; MUL never raises it. -/
def Obligations.DivideByZeroOnlyByDiv : Prop :=
  (∀ (rd rs : RegField) (dst src : Reg) (s : State),
    Reg.ofField rd = some dst → Reg.ofField rs = some src → s.regs.get src = 0#32 →
    TakesFault (.divu rd rs) s .divideByZero ∧ TakesFault (.divs rd rs) s .divideByZero) ∧
  ∀ (rd rs : RegField) (s : State),
    (∃ t, exec (.mulu rd rs) s = .next t ∧ (t.latch = some .divideByZero → s.latch = some .divideByZero)) ∧
    (∃ t, exec (.muls rd rs) s = .next t ∧ (t.latch = some .divideByZero → s.latch = some .divideByZero))

/-! Logic -/

/-- R130, R132, R134: OR, AND and XOR with a register write `c`, whatever `dest` names, and nothing else. -/
def Obligations.LogicRegisterForms : Prop :=
  DecodesTo 7#5 0#1 (fun _ dest src _ => .orReg dest src) ∧
  DecodesTo 8#5 0#1 (fun _ dest src _ => .andReg dest src) ∧
  DecodesTo 9#5 0#1 (fun _ dest src _ => .xorReg dest src) ∧
  ∀ (rd rs : RegField) (s : State),
    match Reg.ofField rd, Reg.ofField rs with
    | some dst, some src =>
      CompletesInRegs (.orReg rd rs) s [(.c, s.regs.get dst ||| s.regs.get src)] ∧
      CompletesInRegs (.andReg rd rs) s [(.c, s.regs.get dst &&& s.regs.get src)] ∧
      CompletesInRegs (.xorReg rd rs) s [(.c, s.regs.get dst ^^^ s.regs.get src)]
    | _, _ =>
      TakesFault (.orReg rd rs) s .indexFault ∧ TakesFault (.andReg rd rs) s .indexFault ∧
      TakesFault (.xorReg rd rs) s .indexFault

/-- R131, R133, R135: OR, AND and XOR with an immediate. -/
def Obligations.LogicImmediateForms : Prop :=
  DecodesTo 7#5 1#1 (fun _ dest _ value => .orImm dest value) ∧
  DecodesTo 8#5 1#1 (fun _ dest _ value => .andImm dest value) ∧
  DecodesTo 9#5 1#1 (fun _ dest _ value => .xorImm dest value) ∧
  ∀ (rd : RegField) (v : Word) (s : State),
    match Reg.ofField rd with
    | some dst =>
      CompletesInRegs (.orImm rd v) s [(.c, s.regs.get dst ||| v)] ∧
      CompletesInRegs (.andImm rd v) s [(.c, s.regs.get dst &&& v)] ∧
      CompletesInRegs (.xorImm rd v) s [(.c, s.regs.get dst ^^^ v)]
    | none =>
      TakesFault (.orImm rd v) s .indexFault ∧ TakesFault (.andImm rd v) s .indexFault ∧
      TakesFault (.xorImm rd v) s .indexFault

/-- R136, R137: NOT of a register ignores `src` and the value; NOT of the value uses no register field and never faults;
both write `c` and nothing else. -/
def Obligations.NotForms : Prop :=
  DecodesTo 10#5 0#1 (fun _ dest _ _ => .notReg dest) ∧
  DecodesTo 10#5 1#1 (fun _ _ _ value => .notImm value) ∧
  (∀ (rd : RegField) (s : State),
    match Reg.ofField rd with
    | some dst => CompletesInRegs (.notReg rd) s [(.c, ~~~ s.regs.get dst)]
    | none => TakesFault (.notReg rd) s .indexFault) ∧
  ∀ (v : Word) (s : State), CompletesInRegs (.notImm v) s [(.c, ~~~ v)]

/-- SHR and SHL with a register amount (R138, R140; that both are logical and that an amount of 32 or more gives 0 is
the spec's decision D18): the shifted value to `c` and nothing else. -/
def Obligations.ShiftRegisterForms : Prop :=
  DecodesTo 11#5 0#1 (fun _ dest src _ => .shrReg dest src) ∧
  DecodesTo 12#5 0#1 (fun _ dest src _ => .shlReg dest src) ∧
  ∀ (rd rs : RegField) (s : State),
    match Reg.ofField rd, Reg.ofField rs with
    | some dst, some src =>
      CompletesInRegs (.shrReg rd rs) s [(.c, s.regs.get dst >>> (s.regs.get src).toNat)] ∧
      CompletesInRegs (.shlReg rd rs) s [(.c, s.regs.get dst <<< (s.regs.get src).toNat)] ∧
      (32 ≤ (s.regs.get src).toNat →
        CompletesInRegs (.shrReg rd rs) s [(.c, 0#32)] ∧ CompletesInRegs (.shlReg rd rs) s [(.c, 0#32)])
    | _, _ => TakesFault (.shrReg rd rs) s .indexFault ∧ TakesFault (.shlReg rd rs) s .indexFault

/-- SHR and SHL with an immediate amount (R139, R141; decision D18): the whole 32-bit value is the amount. -/
def Obligations.ShiftImmediateForms : Prop :=
  DecodesTo 11#5 1#1 (fun _ dest _ value => .shrImm dest value) ∧
  DecodesTo 12#5 1#1 (fun _ dest _ value => .shlImm dest value) ∧
  ∀ (rd : RegField) (v : Word) (s : State),
    match Reg.ofField rd with
    | some dst =>
      CompletesInRegs (.shrImm rd v) s [(.c, s.regs.get dst >>> v.toNat)] ∧
      CompletesInRegs (.shlImm rd v) s [(.c, s.regs.get dst <<< v.toNat)] ∧
      (32 ≤ v.toNat → CompletesInRegs (.shrImm rd v) s [(.c, 0#32)] ∧ CompletesInRegs (.shlImm rd v) s [(.c, 0#32)])
    | none => TakesFault (.shrImm rd v) s .indexFault ∧ TakesFault (.shlImm rd v) s .indexFault

/-! Stack -/

/-- PUSH (R150, which the spec marks with its decisions D5, D7 and D12), in every state whose memory has the canonical
form (the model's, log 2): the low bytes of `dest` go to the old `sp`, then `sp` drops by 4 whatever the size;
IndexFault, then OpcodeFault for width 3, then MemoryFault (the order is decision D24). That a PUSH at `sp` 0xFFFFFFFC
completes at a capacity above 0xFFFFFFFC is the model's choice (log 12): it follows R150's pseudocode there, against
R150's corner case "so the next PUSH faults". -/
def Obligations.PushStoresAtOldSp : Prop :=
  DecodesTo 13#5 1#1 (fun width dest _ _ => .push dest width) ∧
  ∀ (rd : RegField) (w : WidthField) (s : State), s.mem.wf →
    match Reg.ofField rd with
    | none => TakesFault (.push rd w) s .indexFault
    | some dst =>
      if w = 3#2 then TakesFault (.push rd w) s .opcodeFault
      else if s.regs.sp.toNat + 2 ^ w.toNat ≤ s.mem.capacity then
        CompletesStoring (.push rd w) s [(.sp, s.regs.sp - 4#32)] s.regs.sp (2 ^ w.toNat) (s.regs.get dst)
      else TakesFault (.push rd w) s .memoryFault

/-- POP (R151; that the width field is ignored is the spec's decision D32): `sp` drops by 4 first, then `dest` gets the
dword there, which wins when `dest` is `sp`; no memory changes. IndexFault stands before MemoryFault (decision D24).
That a POP at `sp` 0 completes at the capacity `2^32` is the model's choice (log 12): it follows R151's pseudocode there,
against R151's corner case "With `sp < 4`" and R198's "A POP at `sp = 0` faults". -/
def Obligations.PopReadsBelowSp : Prop :=
  DecodesTo 13#5 0#1 (fun _ dest _ _ => .pop dest) ∧
  ∀ (rd : RegField) (s : State),
    match Reg.ofField rd with
    | none => TakesFault (.pop rd) s .indexFault
    | some dst =>
      if (s.regs.sp - 4#32).toNat + 4 ≤ s.mem.capacity then
        ∃ x : Word, CompletesInRegs (.pop rd) s [(.sp, s.regs.sp - 4#32), (dst, x)] ∧
          ∀ k, k < 4 → x.extractLsb' (8 * k) 8 = s.mem.readByte ((s.regs.sp - 4#32).toNat + k)
      else TakesFault (.pop rd) s .memoryFault

/-- PUSH and POP are no last-in-first-out pair (R152, marked derived): after a dword PUSH at `sp = S`, a POP into another
register than `sp` sets `sp` to `S - 8` and reads the dword at `S - 8`, which the PUSH did not write. -/
def Obligations.PushThenPopReadsEightBelow : Prop :=
  ∀ (rd rd' : RegField) (dst dst' : Reg) (s : State), s.Inv →
    Reg.ofField rd = some dst → Reg.ofField rd' = some dst' → dst' ≠ .sp →
    8 ≤ s.regs.sp.toNat → s.regs.sp.toNat + 4 ≤ s.mem.capacity →
    ∃ t u, exec (.push rd 2#2) s = .next t ∧ exec (.pop rd') t = .next u ∧ u.latch = s.latch ∧
      u.regs.sp = s.regs.sp - 8#32 ∧
      ∀ k, k < 4 → (u.regs.get dst').extractLsb' (8 * k) 8 = s.mem.readByte (s.regs.sp.toNat - 8 + k)

/-! Control -/

/-- JUMP to the value of `dest`, in all four conditions (R160, R162; that the target is checked whether or not the JUMP is
taken is the spec's decision D11, that `ip` then advances is D10): a field of 9 to 15 raises IndexFault first. -/
def Obligations.JumpRegisterForms : Prop :=
  DecodesTo 14#5 0#1 (fun width dest _ _ =>
    if width = 0#2 then .jzReg dest else if width = 1#2 then .jnsReg dest
    else if width = 2#2 then .jsReg dest else .jmpReg dest) ∧
  ∀ (rd : RegField) (s : State),
    match Reg.ofField rd with
    | some dst =>
      JumpsTo (.jzReg rd) s (s.regs.get dst) (s.regs.c = 0#32) ∧
      JumpsTo (.jnsReg rd) s (s.regs.get dst) (s.regs.c.getLsbD 31 = false) ∧
      JumpsTo (.jsReg rd) s (s.regs.get dst) (s.regs.c.getLsbD 31 = true) ∧
      JumpsTo (.jmpReg rd) s (s.regs.get dst) True
    | none =>
      TakesFault (.jzReg rd) s .indexFault ∧ TakesFault (.jnsReg rd) s .indexFault ∧
      TakesFault (.jsReg rd) s .indexFault ∧ TakesFault (.jmpReg rd) s .indexFault

/-- JUMP to the value field, in all four conditions (R160, R163; the check of an untaken JUMP is the spec's decision D11,
the advance of `ip` D10): no register field is used. -/
def Obligations.JumpImmediateForms : Prop :=
  DecodesTo 14#5 1#1 (fun width _ _ value =>
    if width = 0#2 then .jzImm value else if width = 1#2 then .jnsImm value
    else if width = 2#2 then .jsImm value else .jmpImm value) ∧
  ∀ (v : Word) (s : State),
    JumpsTo (.jzImm v) s v (s.regs.c = 0#32) ∧
    JumpsTo (.jnsImm v) s v (s.regs.c.getLsbD 31 = false) ∧
    JumpsTo (.jsImm v) s v (s.regs.c.getLsbD 31 = true) ∧
    JumpsTo (.jmpImm v) s v True

/-- The advance of `ip` (R86, the spec's decisions D9 and D10), over all instructions but JUMP, which has its own
statements: an instruction that completes and does not write register 8 leaves `ip` at its own address plus 6 modulo
`2^32`. -/
def Obligations.IpAdvancesUnlessWritten : Prop :=
  ∀ (i : Instr) (s t : State), s.latch = none → exec i s = .next t → t.latch = none →
    i.isJump = false → i.writtenField ≠ some 8#4 → t.regs.ip = s.regs.ip + 6#32

/-- The idle loop (R165, the spec's decision D14): a healthy core standing at a `JMP #t` at address `t` stays there for
ever, changing at most `last`. -/
def Obligations.IdleLoopIsFixedPoint : Prop :=
  ∀ (s : State) (w : Instruction), s.latch = none → fetch s = some w → w.toInstr = .ok (.jmpImm s.regs.ip) →
    ∀ n, Host.Core.run Sys2Proof.core (n + 1) s = .next { s with last := some w }

/-! Faults -/

/-- A used register field of 9 to 15 raises IndexFault, whatever else the instruction holds (R66, the spec's decision D6;
its place before the other checks is decision D24). -/
def Obligations.IllegalRegisterFieldFaults : Prop :=
  ∀ (i : Instr) (s : State), (∃ f ∈ i.usedFields, 8 < f.toNat) → TakesFault i s .indexFault

/-- The rest of the priority order (R176, the spec's decision D24) over all instructions with legal register fields:
width code 3 on a memory access raises OpcodeFault (R68, decision D5); a well-formed instruction can raise only
DivideByZero or MemoryFault, the first only when it is a DIV. -/
def Obligations.FaultsOfLegalFields : Prop :=
  ∀ (i : Instr) (s : State), (∀ f ∈ i.usedFields, f.toNat ≤ 8) →
    (i.sizeField = some 3#2 → TakesFault i s .opcodeFault) ∧
    (i.wellFormed = true → ∃ t, exec i s = .next t ∧
      (t.latch = s.latch ∨ t.latch = some .memoryFault ∨
        (t.latch = some .divideByZero ∧ ∃ rd rs, i = .divu rd rs ∨ i = .divs rd rs)))

/-- An opcode of 15 to 31 raises OpcodeFault (R67, the spec's decision D3), and `last` holds the instruction (R82,
decision D29); nothing else changes. -/
def Obligations.UnknownOpcodeFaults : Prop :=
  ∀ (s : State) (w : Instruction), s.latch = none → fetch s = some w → 15 ≤ w.opcode.toNat →
    step s = .next { s with latch := some .opcodeFault, last := some w }

/-- A fetch whose six bytes are not inside memory raises MemoryFault and changes nothing else, not even `last` (R81, the
spec's decisions D13 and D19; R82, decision D29). -/
def Obligations.FetchOutOfMemoryFaults : Prop :=
  ∀ s : State, s.latch = none → s.mem.capacity < s.regs.ip.toNat + 6 →
    step s = .next { s with latch := some .memoryFault }

/-- Fault entry is precise (R177, the spec's decisions D12 and D13): a cycle of a healthy core that ends with the latch
set changed no register and no byte of memory, and `last` holds the fetched instruction or, after a fetch fault, what it
held (R82, decision D29). -/
def Obligations.FaultIsPrecise : Prop :=
  ∀ s t : State, s.latch = none → step s = .next t → t.latch ≠ none →
    t.regs = s.regs ∧ t.mem = s.mem ∧
      t.last = match fetch s with
        | some w => some w
        | none => s.last

/-- While the latch is set every cycle changes nothing (R178, the spec's decision D32), for any number of cycles. -/
def Obligations.LatchedCoreStaysPut : Prop :=
  ∀ (s : State), s.latch ≠ none → ∀ n, Host.Core.run Sys2Proof.core n s = .next s

/-- R194: the host's `reset()` clears the latch, and nothing else does: no cycle, no instruction, no `load_image`, no
register access. -/
def Obligations.OnlyHostClearsLatch : Prop :=
  ∀ (s : State) (k : Fault), s.latch = some k →
    s.clearLatch.latch = none ∧
    (∀ t, step s = .next t → t.latch = some k) ∧
    (∀ i t, exec i s = .next t → t.latch ≠ none) ∧
    (∀ bytes offset t, s.loadImage bytes offset = .next t → t.latch = some k) ∧
    (∀ index v t, s.testSet index v = .next t → t.latch = some k)

/-- After `reset()` "If the host changes nothing else, the next cycle raises the same fault again" (R179, marked
derived): the cycle gives the very state that stood before `reset()`. -/
def Obligations.RetryAfterResetRefaults : Prop :=
  ∀ s t : State, s.latch = none → step s = .next t → t.latch ≠ none → step t.clearLatch = .next t

/-- A cycle never stops or blocks (R80, R88, which the spec marks with its decisions D1 and D14): from every state, any
number of cycles gives a next state. That a fault is such a next state is the model's rendering (log 3). -/
def Obligations.EveryRunGoesOn : Prop :=
  ∀ (s : State) (n : Nat), ∃ t, Host.Core.run Sys2Proof.core n s = .next t

/-! The cycle, its invariant and its frame -/

/-- Every cycle keeps the invariant: canonical memory (log 2), a capacity in the range of R8 (decision D21), and a
latched fault other than a fetch's only with an instruction in `last` (R82, decision D29). -/
def Obligations.StepKeepsInv : Prop :=
  ∀ s t : State, s.Inv → step s = .next t → t.Inv

/-- The state after reset meets the invariant; its capacity and its bytes are the model's choice (log 1, log 2). -/
def Obligations.ResetMeetsInv : Prop :=
  State.reset.Inv

/-- Power-on (R190; that `last` is None is the spec's decision D29, and D20 and D21 leave the bytes and the capacity
open): for every capacity and every initial byte the registers are 0, the latch Healthy, `last` None, memory holds those
bytes, and the invariant holds. `State.reset` is the power-on with 8192 zero bytes, the model's choice (log 1, log 2). -/
def Obligations.PowerOnState : Prop :=
  (∀ (capacity : Nat) (init : Nat → Byte), 6 ≤ capacity → capacity ≤ 2 ^ 32 →
    (State.powerOn capacity init).Inv ∧
    (∀ r, (State.powerOn capacity init).regs.get r = 0#32) ∧
    (State.powerOn capacity init).latch = none ∧ (State.powerOn capacity init).last = none ∧
    (State.powerOn capacity init).mem.capacity = capacity ∧
    ∀ a, a < capacity → (State.powerOn capacity init).mem.readByte a = init a) ∧
  State.reset = State.powerOn 8192 fun _ => 0#8

/-- A step runs the decoded instruction (R80, R88, decision D1): at a healthy core whose six bytes at `ip` are inside
memory and decode to a well-formed `i`, the step is `exec i` at the same state with `last` set to the decoded record
(R82, decision D29). -/
def Obligations.StepRunsDecodedInstruction : Prop :=
  ∀ (s : State) (i : Instr) (b0 b1 b2 b3 b4 b5 : Byte), s.latch = none → s.regs.ip.toNat + 6 ≤ s.mem.capacity →
    [0, 1, 2, 3, 4, 5].map (fun k => s.mem.readByte (s.regs.ip.toNat + k)) = [b0, b1, b2, b3, b4, b5] →
    decode [b0, b1, b2, b3, b4, b5] = .ok (i, []) → i.wellFormed = true →
    step s = exec i { s with last := some (Instruction.decode b0 b1 b2 b3 b4 b5) }

/-- `last` is diagnostic only (R31: "No instruction reads it"): two cores that differ only in `last` go through a cycle
to cores that agree in every register, every byte and the latch. -/
def Obligations.LastIsDiagnosticOnly : Prop :=
  ∀ (s : State) (l : Option Instruction), ∃ t u, step s = .next t ∧ step { s with last := l } = .next u ∧
    u.regs = t.regs ∧ u.mem = t.mem ∧ u.latch = t.latch

/-- Registers `a`, `b`, `d` (R23) and `bp` (R26, marked derived) have no implicit role: an instruction that does not name
one neither reads it nor writes it, so changing it before the instruction is changing it after. -/
def Obligations.UnnamedRegistersAreUntouched : Prop :=
  ∀ (i : Instr) (s : State) (q : Reg) (v : Word), (q = .a ∨ q = .b ∨ q = .d ∨ q = .bp) →
    (∀ f ∈ i.usedFields, Reg.ofField f ≠ some q) →
    ∃ t, exec i s = .next t ∧ t.regs.get q = s.regs.get q ∧ exec i (s.setReg q v) = .next (t.setReg q v)

/-- Only STORE memory and PUSH change memory (the dispatch of R100 to R163; R69 is the spec's decision D8): for every
other instruction every byte, at every address, reads as before. -/
def Obligations.OnlyStoresChangeMemory : Prop :=
  ∀ (i : Instr) (s t : State), i.storesMemory = false → exec i s = .next t →
    t.mem.capacity = s.mem.capacity ∧ ∀ a, t.mem.readByte a = s.mem.readByte a

/-- The capacity is fixed at power-on (R8, decision D21; R32): no cycle changes it. -/
def Obligations.CapacityNeverChanges : Prop :=
  ∀ s t : State, step s = .next t → t.mem.capacity = s.mem.capacity

/-! Memory -/

/-- The model's canonical form (log 2) makes equal memories equal data: two memories in that form with the same capacity
and the same bytes are the same. -/
def Obligations.EqualBytesEqualMemory : Prop :=
  ∀ m m' : Memory, m.wf → m'.wf → m.capacity = m'.capacity → (∀ a, m.readByte a = m'.readByte a) → m = m'

/-- Mixed-width accesses see the little-endian bytes (R48, marked derived; the size codes are decision D5): a narrower
LOAD `j` bytes into what a wider STORE wrote gives those bytes of the stored register, zero-extended (decision D7). -/
def Obligations.MixedWidthReads : Prop :=
  ∀ (rd rd' : RegField) (dst dst' : Reg) (w w' : WidthField) (v : Word) (j : Nat) (s : State), s.Inv →
    Reg.ofField rd = some dst → Reg.ofField rd' = some dst' → w ≠ 3#2 → w' ≠ 3#2 →
    j + 2 ^ w'.toNat ≤ 2 ^ w.toNat → v.toNat + 2 ^ w.toNat ≤ s.mem.capacity →
    ∃ t u, exec (.storeMem rd w v) s = .next t ∧ exec (.loadMem rd' w' (v + BitVec.ofNat 32 j)) t = .next u ∧
      u.regs.get dst' = ((s.regs.get dst >>> (8 * j)).setWidth (8 * 2 ^ w'.toNat)).setWidth 32

/-- Fetch sees every earlier store (R55, the spec's decision D25): a dword STORE over the value field of the next
instruction is the value the next fetch decodes. -/
def Obligations.StoredCodeIsFetched : Prop :=
  ∀ (s : State) (w : Instruction) (rd : RegField) (dst : Reg), s.Inv → s.latch = none → fetch s = some w →
    w.toInstr = .ok (.storeMem rd 2#2 (s.regs.ip + 8#32)) → Reg.ofField rd = some dst →
    s.regs.ip.toNat + 12 ≤ s.mem.capacity →
    ∃ t u, step s = .next t ∧ t.regs.ip = s.regs.ip + 6#32 ∧ fetch t = some u ∧ u.value = s.regs.get dst

/-! Decoding and encoding -/

/-- Decode and encode agree on every instruction (R73, marked derived; the numbering is decisions D2 to D5): with any
bytes after it, the encoding decodes to the instruction and leaves those bytes. It holds of ill-formed instructions too,
which decode normally (R65). -/
def Obligations.DecodeEncodeAgree : Prop :=
  ∀ (i : Instr) (rest : List Byte), decode (encode i ++ rest) = .ok (i, rest)

/-- "For every field combination, `decode(encode(i)) = i`, and for every 6 bytes `B`, `encode(decode(B)) = B`" (R73,
marked derived): on the record of R61, with every field, used or not. -/
def Obligations.RecordRoundTrip : Prop :=
  (∀ w : Instruction, ∃ b0 b1 b2 b3 b4 b5, w.encode = [b0, b1, b2, b3, b4, b5] ∧
    Instruction.decode b0 b1 b2 b3 b4 b5 = w) ∧
  ∀ b0 b1 b2 b3 b4 b5 : Byte, (Instruction.decode b0 b1 b2 b3 b4 b5).encode = [b0, b1, b2, b3, b4, b5]

/-- The bit positions of R62 (the spec's decision D2) in the 48-bit little-endian word `W` of the six bytes. -/
def Obligations.DecodeFieldPositions : Prop :=
  ∀ b0 b1 b2 b3 b4 b5 : Byte,
    let W : BitVec 48 := b5 ++ b4 ++ b3 ++ b2 ++ b1 ++ b0
    let w := Instruction.decode b0 b1 b2 b3 b4 b5
    w.opcode = W.extractLsb' 0 5 ∧ w.mode = W.extractLsb' 5 1 ∧ w.width = W.extractLsb' 6 2 ∧
    w.dest = W.extractLsb' 8 4 ∧ w.src = W.extractLsb' 12 4 ∧ w.value = W.extractLsb' 16 32

/-- A few words written out from the encodings of R101, R104, R110, R117, R133, R150 and R163 decode to the instructions
they stand for (a sanity statement; the numbering is decisions D2 to D5). -/
def Obligations.SampleWordsDecode : Prop :=
  decode [0x01#8, 0x00#8, 0x05#8, 0x00#8, 0x00#8, 0x00#8] = .ok (.loadImm 0#4 5#32, []) ∧
  decode [0x62#8, 0x00#8, 0xFE#8, 0x1F#8, 0x00#8, 0x00#8] = .ok (.storeMem 0#4 1#2 8190#32, []) ∧
  decode [0x03#8, 0x10#8, 0x00#8, 0x00#8, 0x00#8, 0x00#8] = .ok (.addReg 0#4 1#4, []) ∧
  decode [0x26#8, 0x10#8, 0x00#8, 0x00#8, 0x00#8, 0x00#8] = .ok (.divs 0#4 1#4, []) ∧
  decode [0x28#8, 0x00#8, 0xFF#8, 0x00#8, 0x00#8, 0x00#8] = .ok (.andImm 0#4 0xFF#32, []) ∧
  decode [0xAD#8, 0x06#8, 0x00#8, 0x00#8, 0x00#8, 0x00#8] = .ok (.push 6#4 2#2, []) ∧
  decode [0xEE#8, 0x00#8, 0x2A#8, 0x00#8, 0x00#8, 0x00#8] = .ok (.jmpImm 42#32, [])

/-- R72: "A decoder always consumes 6 bytes", and what it reads there does not depend on what follows. -/
def Obligations.DecoderTakesSixBytes : Prop :=
  ∀ (bytes rest : List Byte) (i : Instr), decode bytes = .ok (i, rest) →
    ∃ six : List Byte, six.length = 6 ∧ bytes = six ++ rest ∧ decode six = .ok (i, [])

/-- Six bytes are refused exactly when their opcode is 15 to 31, and then by that opcode's name (R65, R67, the spec's
decisions D2 and D3). -/
def Obligations.UnknownOpcodesAreRefused : Prop :=
  ∀ b0 b1 b2 b3 b4 b5 : Byte,
    (15 ≤ (b0.extractLsb' 0 5).toNat →
      decode [b0, b1, b2, b3, b4, b5] = .error (.unknownOpcode (b0.extractLsb' 0 5))) ∧
    (¬ 15 ≤ (b0.extractLsb' 0 5).toNat → ∃ i, decode [b0, b1, b2, b3, b4, b5] = .ok (i, []))

/-- The numbers of the registers (R21, the spec's decision D4), none for 9 to 15 (R66, decision D6), and the fault codes
(R171, decision D23). -/
def Obligations.RegisterAndFaultNumbers : Prop :=
  [0#4, 1#4, 2#4, 3#4, 4#4, 5#4, 6#4, 7#4, 8#4].map Reg.ofField =
    [some .a, some .b, some .c, some .d, some .e, some .f, some .sp, some .bp, some .ip] ∧
  (∀ f : RegField, 8 < f.toNat → Reg.ofField f = none) ∧
  [Fault.memoryFault, .opcodeFault, .divideByZero, .indexFault].map Fault.code = [1, 2, 3, 4]

/-! The host's operations -/

/-- `reset()` clears the latch and changes no register, no byte and not `last`; on a healthy core it has no effect (R192,
the spec's decision D22). -/
def Obligations.HostResetClearsLatchOnly : Prop :=
  ∀ s : State, s.clearLatch = { s with latch := none } ∧ (s.latch = none → s.clearLatch = s)

/-- `load_image` (R196, the spec's decision D30), in every state whose memory has the canonical form: an image that does
not fit is answered with MemoryFault; one that fits gives a state that differs in its bytes alone, and whose memory has
the canonical form again. That form is the model's own (log 2). -/
def Obligations.LoadImageAllOrNothing : Prop :=
  ∀ (s : State) (bytes : List Byte) (offset : Nat), s.mem.wf →
    (s.mem.capacity < offset + bytes.length → s.loadImage bytes offset = .fault .memoryFault) ∧
    (offset + bytes.length ≤ s.mem.capacity → ∃ t, s.loadImage bytes offset = .next t ∧
      t.regs = s.regs ∧ t.latch = s.latch ∧ t.last = s.last ∧ t.mem.wf ∧ t.mem.capacity = s.mem.capacity ∧
      (∀ k (h : k < bytes.length), t.mem.readByte (offset + k) = bytes[k]) ∧
      ∀ a, a < offset ∨ offset + bytes.length ≤ a → t.mem.readByte a = s.mem.readByte a)

/-- `load_image` is refused once a cycle has run, and only then (R195, the spec's decision D30; where that is remembered
is the model's choice, log 8): power-on leaves the mark clear, a cycle sets it, and no other operation that changes the
session touches it. `reset()` and the register test access are those of the core (R192, R197) at any time (R193). -/
def Obligations.LoadImageRefusedAfterCycle : Prop :=
  ∀ (h : Session) (bytes : List Byte) (offset : Nat),
    (h.loadImage bytes offset = .refused .loadAfterFirstCycle ↔ h.cycled = true) ∧
    (∀ capacity init, (Session.powerOn capacity init).cycled = false) ∧
    (∀ h' o, h.cycle = .next (h', o) → h'.cycled = true) ∧
    (∀ h', h.loadImage bytes offset = .next h' →
      h'.cycled = h.cycled ∧ h.core.loadImage bytes offset = .next h'.core) ∧
    (h.resetLatch.cycled = h.cycled ∧ h.resetLatch.core = h.core.clearLatch) ∧
    ∀ index v h', h.testSet index v = .next h' → h'.cycled = h.cycled ∧ h.core.testSet index v = .next h'.core

/-- The register test access (R197, the spec's decision D31): index 0 to 8 reads or writes that register and nothing
else; any other index is answered with IndexFault, and the latch is not set. -/
def Obligations.TestAccessByIndex : Prop :=
  ∀ (s : State) (index : Nat) (v : Word),
    match Reg.ofIndex index with
    | some r => index ≤ 8 ∧ s.testGet index = .ok (s.regs.get r) ∧ s.testGetSigned index = .ok (s.regs.get r).toInt ∧
        ∃ t, s.testSet index v = .next t ∧ t.regs.get r = v ∧ (∀ q, q ≠ r → t.regs.get q = s.regs.get q) ∧
          t.mem = s.mem ∧ t.latch = s.latch ∧ t.last = s.last
    | none => 8 < index ∧ s.testGet index = .error .indexFault ∧ s.testGetSigned index = .error .indexFault ∧
        s.testSet index v = .fault .indexFault

/-- The host's `cycle` is one step, and its outcome is Fault(k) exactly when the latch then holds `k` (R80, R88, which the
spec marks with its decision D1; that the outcome is read off the latch is the model's rendering, log 3). -/
def Obligations.CycleOutcomeIsLatch : Prop :=
  ∀ h : Session, ∃ s o, step h.core = .next s ∧ h.cycle = .next (⟨s, true⟩, o) ∧
    (s.latch = none → o = .continued) ∧ ∀ k, s.latch = some k → o = .faulted k

/-- A word placed by `withFetchWord` (the model's own, log 9) is what the very next step runs, in every state that meets
the invariant; outside its six bytes memory is unchanged, and so are the registers when `ip` could already fetch. -/
def Obligations.PlacedWordRunsNext : Prop :=
  ∀ (s : State) (nbits w : Nat) (i : Instr), s.Inv → decodeTableWord nbits w = some i →
    (∃ r : Instruction, r.toInstr = .ok i ∧
      step (s.withFetchWord nbits w) = exec i { s.withFetchWord nbits w with last := some r }) ∧
    (s.regs.ip.toNat + 6 ≤ s.mem.capacity → (s.withFetchWord nbits w).regs = s.regs ∧
      ∀ a, a < s.regs.ip.toNat ∨ s.regs.ip.toNat + 6 ≤ a →
        (s.withFetchWord nbits w).mem.readByte a = s.mem.readByte a)
end

