-- ==== Sys2Proof/Laws/State.lean ====
section
/-! SUPPORT. One lemma per field per update of the state, and the register file's read-after-write laws. -/

namespace Sys2Proof.Machine

@[simp] theorem Regs.get_set_same (x : Regs) (r : Reg) (v : Word) : (x.set r v).get r = v := by
  cases r <;> rfl

theorem Regs.get_set_of_ne (x : Regs) {r q : Reg} (v : Word) (h : q ≠ r) : (x.set r v).get q = x.get q := by
  cases r <;> cases q <;> first | rfl | exact absurd rfl h

theorem Regs.get_set (x : Regs) (r q : Reg) (v : Word) :
    (x.set r v).get q = if q = r then v else x.get q := by
  by_cases h : q = r
  · simp [h]
  · simp [h, Regs.get_set_of_ne x v h]

/-- Two register files with the same nine values are equal. -/
theorem Regs.ext_get {x y : Regs} (h : ∀ r, x.get r = y.get r) : x = y := by
  cases x; cases y
  have ha := h .a; have hb := h .b; have hc := h .c; have hd := h .d; have he := h .e
  have hf := h .f; have hs := h .sp; have hp := h .bp; have hi := h .ip
  simp only [Regs.get] at *
  subst_vars; rfl

/-- Writes to two different registers commute. -/
theorem Regs.set_comm (x : Regs) {r q : Reg} (v u : Word) (h : q ≠ r) :
    (x.set r v).set q u = (x.set q u).set r v := by
  cases r <;> cases q <;> first | rfl | exact absurd rfl h

@[simp] theorem Regs.get_ip (x : Regs) : x.get .ip = x.ip := rfl
@[simp] theorem Regs.get_sp (x : Regs) : x.get .sp = x.sp := rfl

@[simp] theorem State.setReg_regs (s : State) (r : Reg) (v : Word) : (s.setReg r v).regs = s.regs.set r v := rfl
@[simp] theorem State.setReg_mem (s : State) (r : Reg) (v : Word) : (s.setReg r v).mem = s.mem := rfl
@[simp] theorem State.setReg_latch (s : State) (r : Reg) (v : Word) : (s.setReg r v).latch = s.latch := rfl
@[simp] theorem State.setReg_last (s : State) (r : Reg) (v : Word) : (s.setReg r v).last = s.last := rfl

@[simp] theorem State.setMem_regs (s : State) (m : Memory) : (s.setMem m).regs = s.regs := rfl
@[simp] theorem State.setMem_mem (s : State) (m : Memory) : (s.setMem m).mem = m := rfl
@[simp] theorem State.setMem_latch (s : State) (m : Memory) : (s.setMem m).latch = s.latch := rfl
@[simp] theorem State.setMem_last (s : State) (m : Memory) : (s.setMem m).last = s.last := rfl

@[simp] theorem State.setLatch_regs (s : State) (l : Option Fault) : (s.setLatch l).regs = s.regs := rfl
@[simp] theorem State.setLatch_mem (s : State) (l : Option Fault) : (s.setLatch l).mem = s.mem := rfl
@[simp] theorem State.setLatch_latch (s : State) (l : Option Fault) : (s.setLatch l).latch = l := rfl
@[simp] theorem State.setLatch_last (s : State) (l : Option Fault) : (s.setLatch l).last = s.last := rfl

@[simp] theorem State.setLast_regs (s : State) (l : Option Instruction) : (s.setLast l).regs = s.regs := rfl
@[simp] theorem State.setLast_mem (s : State) (l : Option Instruction) : (s.setLast l).mem = s.mem := rfl
@[simp] theorem State.setLast_latch (s : State) (l : Option Instruction) : (s.setLast l).latch = s.latch := rfl
@[simp] theorem State.setLast_last (s : State) (l : Option Instruction) : (s.setLast l).last = l := rfl

@[simp] theorem State.takeFault_regs (s : State) (k : Fault) : (s.takeFault k).regs = s.regs := rfl
@[simp] theorem State.takeFault_mem (s : State) (k : Fault) : (s.takeFault k).mem = s.mem := rfl
@[simp] theorem State.takeFault_latch (s : State) (k : Fault) : (s.takeFault k).latch = some k := rfl
@[simp] theorem State.takeFault_last (s : State) (k : Fault) : (s.takeFault k).last = s.last := rfl

@[simp] theorem State.clearLatch_regs (s : State) : s.clearLatch.regs = s.regs := rfl
@[simp] theorem State.clearLatch_mem (s : State) : s.clearLatch.mem = s.mem := rfl
@[simp] theorem State.clearLatch_latch (s : State) : s.clearLatch.latch = none := rfl
@[simp] theorem State.clearLatch_last (s : State) : s.clearLatch.last = s.last := rfl

@[simp] theorem State.fetched_regs (s : State) (w : Instruction) : (s.fetched w).regs = s.regs := rfl
@[simp] theorem State.fetched_mem (s : State) (w : Instruction) : (s.fetched w).mem = s.mem := rfl
@[simp] theorem State.fetched_latch (s : State) (w : Instruction) : (s.fetched w).latch = s.latch := rfl
@[simp] theorem State.fetched_last (s : State) (w : Instruction) : (s.fetched w).last = some w := rfl

@[simp] theorem State.placeAtIp_regs (s : State) (bytes : List Byte) : (s.placeAtIp bytes).regs = s.regs := rfl
@[simp] theorem State.placeAtIp_latch (s : State) (bytes : List Byte) : (s.placeAtIp bytes).latch = s.latch := rfl
@[simp] theorem State.placeAtIp_last (s : State) (bytes : List Byte) : (s.placeAtIp bytes).last = s.last := rfl

end Sys2Proof.Machine
end

