-- ==== Sys2Proof/Laws/Memory.lean ====
section
/-! SUPPORT. What each memory operation does to the bytes, and that each keeps the canonical form. -/

namespace Sys2Proof.Machine

/-! Cells -/

theorem readCells_of_lt {l : List Host.Cell} {x : Nat} (h : ∀ c ∈ l, x < c.1) :
    readCells l x = Config.unlistedByte := by
  induction l with
  | nil => rfl
  | cons c rest ih =>
    have hc := h c (by simp)
    obtain ⟨a, b⟩ := c
    simp only [readCells]
    rw [if_neg (by simp only at hc; omega)]
    exact ih fun c' hc' => h c' (by simp [hc'])

theorem readCells_writeCells_of_ne (l : List Host.Cell) {x y : Nat} (v : Byte) (h : y ≠ x) :
    readCells (writeCells l x v) y = readCells l y := by
  induction l with
  | nil => simp only [writeCells]; split <;> simp [readCells, h]
  | cons c rest ih =>
    obtain ⟨a, b⟩ := c
    simp only [writeCells]
    split
    · split <;> simp [readCells, h]
    · split
      · rename_i hx
        subst hx
        split <;> simp [readCells, h]
      · simp [readCells, ih]

theorem readCells_writeCells_same {l : List Host.Cell} (hl : List.Pairwise (fun x y => x.1 < y.1) l)
    (x : Nat) (v : Byte) : readCells (writeCells l x v) x = v := by
  induction l with
  | nil => simp only [writeCells]; split <;> simp_all [readCells]
  | cons c rest ih =>
    obtain ⟨a, b⟩ := c
    rw [List.pairwise_cons] at hl
    simp only [writeCells]
    split
    · rename_i hx
      split
      · rename_i hv
        rw [hv]
        apply readCells_of_lt
        intro c' hc'
        rcases List.mem_cons.mp hc' with rfl | hm
        · exact hx
        · have := hl.1 c' hm
          simp only at this
          omega
      · simp [readCells]
    · split
      · rename_i hx
        subst hx
        split
        · rename_i hv
          rw [hv]
          exact readCells_of_lt hl.1
        · simp [readCells]
      · rename_i hx
        simp [readCells, hx, ih hl.2]

theorem mem_writeCells {l : List Host.Cell} {x : Nat} {v : Byte} {c : Host.Cell} (h : c ∈ writeCells l x v) :
    c ∈ l ∨ (c = (x, v) ∧ v ≠ Config.unlistedByte) := by
  induction l with
  | nil =>
    simp only [writeCells] at h
    split at h <;> simp_all
  | cons c' rest ih =>
    obtain ⟨a, b⟩ := c'
    simp only [writeCells] at h
    split at h
    · split at h
      · exact .inl h
      · rename_i hv
        rcases List.mem_cons.mp h with rfl | h
        · exact .inr ⟨rfl, hv⟩
        · exact .inl h
    · split at h
      · split at h
        · exact .inl (List.mem_cons_of_mem _ h)
        · rename_i hv
          rcases List.mem_cons.mp h with rfl | h
          · exact .inr ⟨rfl, hv⟩
          · exact .inl (List.mem_cons_of_mem _ h)
      · rcases List.mem_cons.mp h with rfl | h
        · exact .inl (by simp)
        · exact (ih h).imp_left (List.mem_cons_of_mem _)

theorem pairwise_writeCells {l : List Host.Cell} (hl : List.Pairwise (fun x y => x.1 < y.1) l) (x : Nat) (v : Byte) :
    List.Pairwise (fun x y => x.1 < y.1) (writeCells l x v) := by
  induction l with
  | nil => simp only [writeCells]; split <;> simp
  | cons c rest ih =>
    obtain ⟨a, b⟩ := c
    have h := List.pairwise_cons.mp hl
    simp only [writeCells]
    split
    · rename_i hx
      split
      · exact hl
      · refine List.pairwise_cons.mpr ⟨fun c' hc' => ?_, hl⟩
        rcases List.mem_cons.mp hc' with rfl | hm
        · exact hx
        · have := h.1 c' hm
          simp only at this ⊢
          omega
    · split
      · rename_i hx
        subst hx
        split
        · exact h.2
        · exact List.pairwise_cons.mpr ⟨h.1, h.2⟩
      · refine List.pairwise_cons.mpr ⟨fun c' hc' => ?_, ih h.2⟩
        rcases mem_writeCells hc' with hm | ⟨rfl, -⟩
        · exact h.1 c' hm
        · simp only
          omega

/-! One byte -/

theorem Memory.wf_writeByte {m : Memory} (h : m.wf) (a : Nat) (v : Byte) : (m.writeByte a v).wf := by
  unfold Memory.writeByte
  split
  · rename_i ha
    refine ⟨pairwise_writeCells h.1 a v, fun x hx => ?_⟩
    rcases mem_writeCells hx with hm | ⟨rfl, hv⟩
    · exact h.2 x hm
    · exact ⟨hv, ha⟩
  · exact h

@[simp] theorem Memory.capacity_writeByte (m : Memory) (a : Nat) (v : Byte) :
    (m.writeByte a v).capacity = m.capacity := by
  unfold Memory.writeByte; split <;> rfl

theorem Memory.readByte_writeByte_of_ne (m : Memory) {a x : Nat} (v : Byte) (h : x ≠ a) :
    (m.writeByte a v).readByte x = m.readByte x := by
  unfold Memory.writeByte Memory.readByte
  split
  · exact readCells_writeCells_of_ne _ _ h
  · rfl

theorem Memory.readByte_writeByte_same {m : Memory} (hm : m.wf) {a : Nat} (v : Byte) (h : a < m.capacity) :
    (m.writeByte a v).readByte a = v := by
  unfold Memory.writeByte Memory.readByte
  rw [if_pos h]
  exact readCells_writeCells_same hm.1 a v

/-! Spans -/

theorem Memory.wf_writeSpan {m : Memory} (h : m.wf) (a n : Nat) (v : Word) : (m.writeSpan a n v).wf := by
  induction n with
  | zero => exact h
  | succ k ih => exact Memory.wf_writeByte ih _ _

@[simp] theorem Memory.capacity_writeSpan (m : Memory) (a n : Nat) (v : Word) :
    (m.writeSpan a n v).capacity = m.capacity := by
  induction n with
  | zero => rfl
  | succ k ih => simp [Memory.writeSpan, ih]

/-- A store leaves every byte outside its span. -/
theorem Memory.readByte_writeSpan_outside (m : Memory) (a n : Nat) (v : Word) {x : Nat}
    (h : ∀ k, k < n → x ≠ a + k) : (m.writeSpan a n v).readByte x = m.readByte x := by
  induction n with
  | zero => rfl
  | succ k ih =>
    rw [Memory.writeSpan, Memory.readByte_writeByte_of_ne _ _ (h k (by omega))]
    exact ih fun j hj => h j (by omega)

/-- A store puts byte `k` of the value at `a + k` (R44). -/
theorem Memory.readByte_writeSpan_inside {m : Memory} (hm : m.wf) (a n : Nat) (v : Word) {k : Nat} (hk : k < n)
    (hb : a + n ≤ m.capacity) : (m.writeSpan a n v).readByte (a + k) = v.extractLsb' (8 * k) 8 := by
  induction n with
  | zero => omega
  | succ j ih =>
    by_cases h : k = j
    · subst h
      exact Memory.readByte_writeByte_same (Memory.wf_writeSpan hm _ _ _) _ (by simp; omega)
    · rw [Memory.writeSpan, Memory.readByte_writeByte_of_ne _ _ (by omega)]
      exact ih (by omega) (by omega)

/-- Byte `k` of a load of up to four bytes is `mem[a + k]`, and the bytes above the access are 0 (R43, R102). -/
theorem Memory.extract_readSpan (m : Memory) (a : Nat) {n : Nat} (hn : n ≤ 4) {k : Nat} (hk : k < 4) :
    (m.readSpan a n).extractLsb' (8 * k) 8 = if k < n then m.readByte (a + k) else 0 := by
  induction n with
  | zero => simp [Memory.readSpan]
  | succ j ih =>
    rw [Memory.readSpan, BitVec.extractLsb'_or, ih (by omega)]
    apply BitVec.eq_of_getLsbD_eq
    intro i hi
    rcases Nat.lt_trichotomy k j with h | h | h
    · rw [if_pos h, if_pos (by omega)]
      simp only [BitVec.getLsbD_or, BitVec.getLsbD_extractLsb', BitVec.getLsbD_shiftLeft]
      simp; omega
    · subst h
      simp only [lt_self_iff_false, ↓reduceIte, Nat.lt_succ_self, BitVec.getLsbD_or, BitVec.getLsbD_extractLsb',
        BitVec.getLsbD_shiftLeft, BitVec.getLsbD_setWidth]
      have h1 : 8 * k + i < 32 := by omega
      have h2 : i < 32 := by omega
      simp [hi, h1, h2]
    · rw [if_neg (by omega), if_neg (by omega)]
      simp only [BitVec.getLsbD_or, BitVec.getLsbD_extractLsb', BitVec.getLsbD_shiftLeft, BitVec.getLsbD_setWidth]
      simp
      intro _ _ _ _
      exact BitVec.getLsbD_of_ge _ _ (by omega)

/-- A load depends on the bytes of its span only. -/
theorem Memory.readSpan_congr {m m' : Memory} {a a' n : Nat}
    (h : ∀ k, k < n → m.readByte (a + k) = m'.readByte (a' + k)) : m.readSpan a n = m'.readSpan a' n := by
  induction n with
  | zero => rfl
  | succ k ih => rw [Memory.readSpan, Memory.readSpan, ih fun j hj => h j (by omega), h k (by omega)]

/-! Byte sequences -/

theorem Memory.wf_writeBytes {m : Memory} (h : m.wf) (a : Nat) (bytes : List Byte) : (m.writeBytes a bytes).wf := by
  induction bytes generalizing m a with
  | nil => exact h
  | cons b rest ih => exact ih (Memory.wf_writeByte h a b) (a + 1)

@[simp] theorem Memory.capacity_writeBytes (m : Memory) (a : Nat) (bytes : List Byte) :
    (m.writeBytes a bytes).capacity = m.capacity := by
  induction bytes generalizing m a with
  | nil => rfl
  | cons b rest ih => simp [Memory.writeBytes, ih]

theorem Memory.readByte_writeBytes_outside (m : Memory) (a : Nat) (bytes : List Byte) {x : Nat}
    (h : x < a ∨ a + bytes.length ≤ x) : (m.writeBytes a bytes).readByte x = m.readByte x := by
  induction bytes generalizing m a with
  | nil => rfl
  | cons b rest ih =>
    simp only [List.length_cons] at h
    rw [Memory.writeBytes, ih _ _ (by omega), Memory.readByte_writeByte_of_ne _ _ (by omega)]

theorem Memory.readByte_writeBytes_inside {m : Memory} (hm : m.wf) (a : Nat) (bytes : List Byte) {k : Nat}
    (hk : k < bytes.length) (hb : a + bytes.length ≤ m.capacity) :
    (m.writeBytes a bytes).readByte (a + k) = bytes[k] := by
  induction bytes generalizing m a k with
  | nil => simp at hk
  | cons b rest ih =>
    simp only [List.length_cons] at hk hb
    cases k with
    | zero =>
      rw [Memory.writeBytes, Memory.readByte_writeBytes_outside _ _ _ (by omega)]
      exact Memory.readByte_writeByte_same hm b (by omega)
    | succ j =>
      have := ih (Memory.wf_writeByte hm a b) (a + 1) (k := j) (by omega) (by simp; omega)
      rw [Memory.writeBytes, show a + (j + 1) = a + 1 + j by omega, this]
      simp

/-! Power-on memory -/

theorem Memory.wf_ofInit (capacity : Nat) (init : Nat → Byte) : (Memory.ofInit capacity init).wf := by
  constructor
  · refine (List.pairwise_lt_range (n := capacity)).filterMap _ ?_
    intro a a' h c hc c' hc'
    split at hc <;> simp_all
    obtain ⟨-, rfl⟩ := hc'
    subst hc
    exact h
  · intro x hx
    simp only [Memory.ofInit, List.mem_filterMap, List.mem_range] at hx
    obtain ⟨a, ha, h⟩ := hx
    split at h <;> simp_all
    subst h
    exact ⟨by assumption, ha⟩

/-- The memory right after reset has the canonical form. -/
theorem reset_mem_wf : State.reset.mem.wf := by
  simp [Memory.wf, State.reset]

end Sys2Proof.Machine
end

