-- ==== Sys2Proof/Laws/Ops.lean ====
section
/-! SUPPORT. For each shared operation, one lemma that says once everything it can do; proofs about instructions cite
these and do not unfold the operations. -/

namespace Sys2Proof.Machine

/-! Operand forms -/

@[simp] theorem withReg_some {f : RegField} {r : Reg} (h : Reg.ofField f = some r) (k : Reg → Effect) :
    withReg f k = k r := by
  simp [withReg, h]

@[simp] theorem withReg_none {f : RegField} (h : Reg.ofField f = none) (k : Reg → Effect) :
    withReg f k = .error .indexFault := by
  simp [withReg, h]

/-- A used register field answers IndexFault, or names a register and goes on. -/
theorem withReg_cases (f : RegField) (k : Reg → Effect) :
    (Reg.ofField f = none ∧ withReg f k = .error .indexFault) ∨
      ∃ r, Reg.ofField f = some r ∧ withReg f k = k r := by
  cases h : Reg.ofField f with
  | none => exact .inl ⟨rfl, withReg_none h k⟩
  | some r => exact .inr ⟨r, rfl, withReg_some h k⟩

/-- A register field names a register exactly when it is at most 8 (R66). -/
theorem Reg.ofField_eq_none_iff (f : RegField) : Reg.ofField f = none ↔ 8 < f.toNat := by
  revert f; decide

theorem accessBytes_eq (w : WidthField) (h : w ≠ 3#2) : accessBytes w = some (2 ^ w.toNat) := by
  simp [accessBytes, h]

/-- Every access size is at most four bytes (R46). -/
theorem accessBytes_le {w : WidthField} {n : Nat} (h : accessBytes w = some n) : n ≤ 4 := by
  unfold accessBytes at h
  split at h
  · cases h
  · rename_i h3
    simp only [Option.some.injEq] at h
    have hw : w.toNat ≤ 2 := by
      have : w.toNat ≠ 3 := fun e => h3 (BitVec.eq_of_toNat_eq e)
      have := w.isLt
      omega
    calc n = 2 ^ w.toNat := h.symm
      _ ≤ 2 ^ 2 := Nat.pow_le_pow_right (by omega) hw

/-- An access size answers OpcodeFault for width code 3, and otherwise goes on with `2^width` bytes. -/
theorem withSize_cases (w : WidthField) (k : Nat → Effect) :
    (w = 3#2 ∧ withSize w k = .error .opcodeFault) ∨ (w ≠ 3#2 ∧ withSize w k = k (2 ^ w.toNat)) := by
  by_cases h : w = 3#2
  · exact .inl ⟨h, by simp [withSize, accessBytes, h]⟩
  · exact .inr ⟨h, by simp [withSize, accessBytes, h]⟩

theorem Memory.inBounds_iff (m : Memory) (addr : Word) (n : Nat) :
    m.inBounds addr n = true ↔ addr.toNat + n ≤ m.capacity := by
  simp [Memory.inBounds]

/-- A span answers MemoryFault when it is not inside memory, and otherwise goes on. -/
theorem withSpan_cases (s : State) (addr : Word) (n : Nat) (x : Effect) :
    (¬ addr.toNat + n ≤ s.mem.capacity ∧ withSpan s addr n x = .error .memoryFault) ∨
      (addr.toNat + n ≤ s.mem.capacity ∧ withSpan s addr n x = x) := by
  by_cases h : addr.toNat + n ≤ s.mem.capacity
  · exact .inr ⟨h, by simp [withSpan, Memory.inBounds, h]⟩
  · exact .inl ⟨h, by simp [withSpan, Memory.inBounds, h]⟩

/-- A JUMP answers MemoryFault for a target outside memory, and otherwise writes `ip` when taken and nothing when not. -/
theorem jumpTo_cases (s : State) (cond : JumpCond) (target : Word) :
    (¬ target.toNat + 6 ≤ s.mem.capacity ∧ jumpTo s cond target = .error .memoryFault) ∨
      (target.toNat + 6 ≤ s.mem.capacity ∧ cond.taken (s.regs.get .c) = true ∧
        jumpTo s cond target = .ok [.reg .ip target]) ∨
      (target.toNat + 6 ≤ s.mem.capacity ∧ cond.taken (s.regs.get .c) = false ∧ jumpTo s cond target = .ok []) := by
  unfold jumpTo
  rcases withSpan_cases s target Config.instrBytes
    (.ok (if cond.taken (s.regs.get .c) then [Write.reg .ip target] else [])) with ⟨h, e⟩ | ⟨h, e⟩
  · exact .inl ⟨h, e⟩
  · rw [e]
    cases cond.taken (s.regs.get .c)
    · exact .inr (.inr ⟨h, rfl, rfl⟩)
    · exact .inr (.inl ⟨h, rfl, rfl⟩)

/-! The operand forms read backwards: what must hold when they end in writes -/

theorem withReg_eq_ok {f : RegField} {k : Reg → Effect} {ws : List Write} :
    withReg f k = .ok ws ↔ ∃ r, Reg.ofField f = some r ∧ k r = .ok ws := by
  cases h : Reg.ofField f <;> simp [withReg, h]

theorem withSize_eq_ok {w : WidthField} {k : Nat → Effect} {ws : List Write} :
    withSize w k = .ok ws ↔ w ≠ 3#2 ∧ k (2 ^ w.toNat) = .ok ws := by
  by_cases h : w = 3#2 <;> simp [withSize, accessBytes, h]

theorem withSpan_eq_ok {s : State} {addr : Word} {n : Nat} {x : Effect} {ws : List Write} :
    withSpan s addr n x = .ok ws ↔ addr.toNat + n ≤ s.mem.capacity ∧ x = .ok ws := by
  by_cases h : addr.toNat + n ≤ s.mem.capacity <;> simp [withSpan, Memory.inBounds, h]

theorem jumpTo_eq_ok {s : State} {cond : JumpCond} {target : Word} {ws : List Write} :
    jumpTo s cond target = .ok ws ↔ target.toNat + 6 ≤ s.mem.capacity ∧
      ws = if cond.taken (s.regs.get .c) then [.reg .ip target] else [] := by
  unfold jumpTo
  rw [withSpan_eq_ok, Except.ok.injEq]
  exact and_congr_right fun _ => eq_comm

/-! The arithmetic functions are the word operations of the library -/

theorem mulUnsigned_eq (x y : Word) : mulUnsigned x y = x * y := by
  simp [mulUnsigned, ← BitVec.toNat_inj, BitVec.toNat_mul]

theorem mulSigned_eq (x y : Word) : mulSigned x y = x * y := by
  simp only [mulSigned, ← BitVec.toInt_inj, BitVec.toInt_mul, BitVec.toInt_ofInt]

theorem quotUnsigned_eq (n d : Word) : quotUnsigned n d = n / d := by
  simp only [quotUnsigned, ← BitVec.toNat_inj, BitVec.toNat_udiv, BitVec.toNat_ofNat]
  exact Nat.mod_eq_of_lt (lt_of_le_of_lt (Nat.div_le_self _ _) n.isLt)

theorem remUnsigned_eq (n d : Word) : remUnsigned n d = n % d := by
  simp only [remUnsigned, ← BitVec.toNat_inj, BitVec.toNat_umod, BitVec.toNat_ofNat]
  exact Nat.mod_eq_of_lt (lt_of_le_of_lt (Nat.mod_le _ _) n.isLt)

theorem quotSigned_eq (n d : Word) : quotSigned n d = n.sdiv d := by
  simp only [quotSigned, ← BitVec.toInt_inj, BitVec.toInt_sdiv, BitVec.toInt_ofInt]

theorem remSigned_eq (n d : Word) : remSigned n d = n.srem d := by
  have h := BitVec.toInt_srem n d
  rw [remSigned, ← BitVec.toInt_inj, h, BitVec.toInt_ofInt, ← Int.tmod_def, ← h]
  apply Int.bmod_eq_of_le
  · simpa using (n.srem d).le_toInt
  · simpa using (n.srem d).toInt_lt

theorem shiftRight_eq (x s : Word) : shiftRight x s = x >>> s.toNat := by
  unfold shiftRight
  split
  · rename_i h
    symm
    apply BitVec.eq_of_toNat_eq
    simp only [BitVec.toNat_ushiftRight, Nat.shiftRight_eq_div_pow, BitVec.toNat_ofNat]
    simpa using lt_of_lt_of_le x.isLt (Nat.pow_le_pow_right (by omega) h)
  · apply BitVec.eq_of_toNat_eq
    simp only [BitVec.toNat_ushiftRight, Nat.shiftRight_eq_div_pow, BitVec.toNat_ofNat]
    exact Nat.mod_eq_of_lt (lt_of_le_of_lt (Nat.div_le_self _ _) x.isLt)

theorem shiftLeft_eq (x s : Word) : shiftLeft x s = x <<< s.toNat := by
  unfold shiftLeft
  split
  · rename_i h
    exact (BitVec.shiftLeft_eq_zero h).symm
  · apply BitVec.eq_of_toNat_eq
    simp [Nat.shiftLeft_eq]

/-! Commit and finish -/

@[simp] theorem State.commit_nil (s : State) : s.commit [] = s := rfl
@[simp] theorem State.commit_cons (s : State) (w : Write) (ws : List Write) :
    s.commit (w :: ws) = (s.applyWrite w).commit ws := rfl
@[simp] theorem State.applyWrite_reg (s : State) (r : Reg) (v : Word) : s.applyWrite (.reg r v) = s.setReg r v := rfl
@[simp] theorem State.applyWrite_mem (s : State) (addr : Word) (n : Nat) (v : Word) :
    s.applyWrite (.mem addr n v) = s.setMem (s.mem.writeSpan addr.toNat n v) := rfl

@[simp] theorem State.commit_latch (s : State) (ws : List Write) : (s.commit ws).latch = s.latch := by
  induction ws generalizing s with
  | nil => rfl
  | cons w ws ih => rw [State.commit_cons, ih]; cases w <;> rfl

@[simp] theorem State.commit_last (s : State) (ws : List Write) : (s.commit ws).last = s.last := by
  induction ws generalizing s with
  | nil => rfl
  | cons w ws ih => rw [State.commit_cons, ih]; cases w <;> rfl

@[simp] theorem State.commit_capacity (s : State) (ws : List Write) :
    (s.commit ws).mem.capacity = s.mem.capacity := by
  induction ws generalizing s with
  | nil => rfl
  | cons w ws ih => rw [State.commit_cons, ih]; cases w <;> simp

theorem State.commit_wf {s : State} (h : s.mem.wf) (ws : List Write) : (s.commit ws).mem.wf := by
  induction ws generalizing s with
  | nil => exact h
  | cons w ws ih =>
    rw [State.commit_cons]
    apply ih
    cases w with
    | reg r v => exact h
    | mem addr n v => exact Memory.wf_writeSpan h _ _ _

@[simp] theorem State.retire_latch (s : State) (ws : List Write) : (s.retire ws).latch = s.latch := by
  unfold State.retire; split <;> simp

@[simp] theorem State.retire_last (s : State) (ws : List Write) : (s.retire ws).last = s.last := by
  unfold State.retire; split <;> simp

theorem State.retire_mem (s : State) (ws : List Write) : (s.retire ws).mem = (s.commit ws).mem := by
  unfold State.retire; split <;> rfl

/-- Every register but `ip` after an instruction is what its writes leave in it. -/
theorem State.retire_get_of_ne_ip (s : State) (ws : List Write) {r : Reg} (h : r ≠ .ip) :
    (s.retire ws).regs.get r = (s.commit ws).regs.get r := by
  unfold State.retire
  split
  · rfl
  · rw [State.setReg_regs, Regs.get_set_of_ne _ _ h]

/-- `ip` after an instruction that did not write it (R86). -/
theorem State.retire_ip_of_not_written (s : State) {ws : List Write} (h : ws.any Write.isIp = false) :
    (s.retire ws).regs.ip = s.regs.ip + 6 := by
  simp [State.retire, h, Regs.set]

/-- `ip` after an instruction that wrote it (R86). -/
theorem State.retire_of_ip_written (s : State) {ws : List Write} (h : ws.any Write.isIp = true) :
    s.retire ws = s.commit ws := by
  simp [State.retire, h]

@[simp] theorem finish_ok (s : State) (ws : List Write) : finish s (.ok ws) = .next (s.retire ws) := rfl
@[simp] theorem finish_error (s : State) (k : Fault) : finish s (.error k) = .next (s.takeFault k) := rfl

/-- An instruction always ends in a next state: its fault taken, or its writes committed. -/
theorem finish_cases (s : State) (x : Effect) :
    (∃ k, x = .error k ∧ finish s x = .next (s.takeFault k)) ∨
      ∃ ws, x = .ok ws ∧ finish s x = .next (s.retire ws) := by
  cases x with
  | error k => exact .inl ⟨k, rfl, rfl⟩
  | ok ws => exact .inr ⟨ws, rfl, rfl⟩

/-! Fetch -/

/-- A table word is laid out as six bytes, the least significant first. -/
theorem tableWordBytes_eq (nbits w : Nat) :
    tableWordBytes nbits w = [byteOfNat (w % 2 ^ nbits) 0, byteOfNat (w % 2 ^ nbits) 1, byteOfNat (w % 2 ^ nbits) 2,
      byteOfNat (w % 2 ^ nbits) 3, byteOfNat (w % 2 ^ nbits) 4, byteOfNat (w % 2 ^ nbits) 5] := by
  unfold tableWordBytes
  generalize w % 2 ^ nbits = x
  rfl

@[simp] theorem tableWordBytes_length (nbits w : Nat) : (tableWordBytes nbits w).length = 6 := by
  rw [tableWordBytes_eq]; rfl

/-- A fetch fails exactly when its six bytes are not inside memory (R81). -/
theorem fetch_eq_none_iff (s : State) : fetch s = none ↔ ¬ s.regs.ip.toNat + 6 ≤ s.mem.capacity := by
  simp [fetch, Memory.inBounds]

/-- A fetch that succeeds decodes the six bytes at `ip` (R81). -/
theorem fetch_eq_some {s : State} (h : s.regs.ip.toNat + 6 ≤ s.mem.capacity) :
    fetch s = some (Instruction.decode (s.mem.readByte s.regs.ip.toNat) (s.mem.readByte (s.regs.ip.toNat + 1))
      (s.mem.readByte (s.regs.ip.toNat + 2)) (s.mem.readByte (s.regs.ip.toNat + 3))
      (s.mem.readByte (s.regs.ip.toNat + 4)) (s.mem.readByte (s.regs.ip.toNat + 5))) := by
  simp [fetch, Memory.inBounds, h]

end Sys2Proof.Machine
end

