-- ==== Sys2Proof/Laws/Step.lean ====
section
/-! SUPPORT. What one cycle can do, said once. -/

namespace Sys2Proof.Machine

/-- The cases of one cycle (R88): latched, fetch fault, unknown opcode, or the fetched instruction's own meaning. -/
theorem step_cases (s : State) :
    (∃ k, s.latch = some k ∧ step s = .next s) ∨
      (s.latch = none ∧ fetch s = none ∧ step s = .next (s.takeFault .memoryFault)) ∨
      (∃ w e, s.latch = none ∧ fetch s = some w ∧ w.toInstr = .error e ∧
        step s = .next ((s.fetched w).takeFault .opcodeFault)) ∨
      (∃ w i, s.latch = none ∧ fetch s = some w ∧ w.toInstr = .ok i ∧ step s = exec i (s.fetched w)) := by
  unfold step
  cases hl : s.latch with
  | some k => exact .inl ⟨k, rfl, rfl⟩
  | none =>
    cases hf : fetch s with
    | none => exact .inr (.inl ⟨rfl, rfl, rfl⟩)
    | some w =>
      cases hw : w.toInstr with
      | error e => exact .inr (.inr (.inl ⟨w, e, rfl, rfl, hw, by simp [hw, cycleUnknownOpcode]⟩))
      | ok i => exact .inr (.inr (.inr ⟨w, i, rfl, rfl, hw, by simp [hw]⟩))

/-- A cycle of a latched core answers the same state (R178). -/
theorem step_latched {s : State} {k : Fault} (h : s.latch = some k) : step s = .next s := by
  simp [step, h, cycleLatched]

/-- A cycle of a healthy core whose fetch gives a known instruction is that instruction's meaning, `last` set. -/
theorem step_runs {s : State} {w : Instruction} {i : Instr} (hl : s.latch = none) (hf : fetch s = some w)
    (hw : w.toInstr = .ok i) : step s = exec i (s.fetched w) := by
  simp [step, hl, hf, hw]

/-! The placing of a word where the next cycle fetches it -/

@[simp] theorem State.readyToFetch_latch (s : State) : s.readyToFetch.latch = none := by
  simp only [State.readyToFetch]; split <;> rfl

@[simp] theorem State.readyToFetch_last (s : State) : s.readyToFetch.last = s.last := by
  simp only [State.readyToFetch]; split <;> rfl

@[simp] theorem State.readyToFetch_mem (s : State) : s.readyToFetch.mem = s.mem := by
  simp only [State.readyToFetch]; split <;> rfl

theorem State.readyToFetch_of_inBounds {s : State} (h : s.regs.ip.toNat + 6 ≤ s.mem.capacity) :
    s.readyToFetch = s.clearLatch := by
  simp [State.readyToFetch, Memory.inBounds, h]

/-- Six bytes fit at `ip`, whatever `ip` was, in a memory of six bytes or more. -/
theorem State.readyToFetch_inBounds {s : State} (h : 6 ≤ s.mem.capacity) :
    s.readyToFetch.regs.ip.toNat + 6 ≤ s.mem.capacity := by
  simp only [State.readyToFetch]
  split
  · rename_i hb
    exact (Memory.inBounds_iff _ _ _).mp hb
  · simpa [Regs.set] using h

@[simp] theorem State.withFetchWord_regs (s : State) (nbits w : Nat) :
    (s.withFetchWord nbits w).regs = s.readyToFetch.regs := by
  unfold State.withFetchWord; rw [State.placeAtIp_regs]

@[simp] theorem State.withFetchWord_latch (s : State) (nbits w : Nat) :
    (s.withFetchWord nbits w).latch = none := by
  unfold State.withFetchWord; rw [State.placeAtIp_latch, State.readyToFetch_latch]

@[simp] theorem State.withFetchWord_last (s : State) (nbits w : Nat) :
    (s.withFetchWord nbits w).last = s.last := by
  unfold State.withFetchWord; rw [State.placeAtIp_last, State.readyToFetch_last]

theorem State.withFetchWord_mem (s : State) (nbits w : Nat) :
    (s.withFetchWord nbits w).mem =
      s.mem.writeBytes s.readyToFetch.regs.ip.toNat (tableWordBytes nbits w) := by
  unfold State.withFetchWord State.placeAtIp; rw [State.setMem_mem, State.readyToFetch_mem]

/-! Runs -/

theorem core_run_zero (s : State) : Host.Core.run Sys2Proof.core 0 s = .next s := rfl

/-- A run whose first cycle gives `t` goes on from `t`. -/
theorem core_run_succ {s t : State} (h : step s = .next t) (n : Nat) :
    Host.Core.run Sys2Proof.core (n + 1) s = Host.Core.run Sys2Proof.core n t := by
  refine (Host.Core.run.eq_2 Sys2Proof.core s n).trans ?_
  have h' : Sys2Proof.core.step s = .next t := h
  rw [h']

end Sys2Proof.Machine
end

