-- ==== Sys2Proof/Laws/Effects.lean ====
section
/-! SUPPORT. From the writes an instruction collects to what the statements say of the state it gives. -/

namespace Sys2Proof.Machine

/-- A list of register writes as the writes an instruction collects. -/
def regWrites (ws : List (Reg × Word)) : List Write :=
  ws.map fun p => Write.reg p.1 p.2

@[simp] theorem regWrites_nil : regWrites [] = [] := rfl
@[simp] theorem regWrites_cons (r : Reg) (v : Word) (ws : List (Reg × Word)) :
    regWrites ((r, v) :: ws) = .reg r v :: regWrites ws := rfl

/-- Register writes touch no memory. -/
@[simp] theorem State.commit_regWrites_mem (s : State) (ws : List (Reg × Word)) :
    (s.commit (regWrites ws)).mem = s.mem := by
  induction ws generalizing s with
  | nil => rfl
  | cons p ws ih => obtain ⟨r, v⟩ := p; rw [regWrites_cons, State.commit_cons, ih]; rfl

/-- After register writes each register holds the last value written to it, or what it held. -/
theorem State.commit_regWrites_get (s : State) (ws : List (Reg × Word)) (q : Reg) :
    (s.commit (regWrites ws)).regs.get q = (lastWrite ws q).getD (s.regs.get q) := by
  induction ws generalizing s with
  | nil => rfl
  | cons p ws ih =>
    obtain ⟨r, v⟩ := p
    rw [regWrites_cons, State.commit_cons, ih, State.applyWrite_reg, State.setReg_regs, lastWrite]
    cases lastWrite ws q with
    | some u => rfl
    | none =>
      by_cases h : r = q
      · subst h; simp
      · simp [h, Regs.get_set_of_ne _ _ (Ne.symm h)]

/-- Register writes name `ip` exactly when a last write to it exists. -/
theorem any_isIp_regWrites (ws : List (Reg × Word)) :
    (regWrites ws).any Write.isIp = (lastWrite ws .ip).isSome := by
  induction ws with
  | nil => rfl
  | cons p ws ih =>
    obtain ⟨r, v⟩ := p
    rw [regWrites_cons, List.any_cons, ih, lastWrite]
    cases lastWrite ws .ip with
    | some u => simp
    | none => cases r <;> simp [Write.isIp]

/-- The registers after an instruction whose register writes, after one other write that leaves the registers, are
`ws`. -/
theorem State.retire_regs_of {s s' : State} {ws : List Write} {rs : List (Reg × Word)}
    (hc : s.commit ws = s'.commit (regWrites rs)) (hr : s'.regs = s.regs)
    (hi : ws.any Write.isIp = (regWrites rs).any Write.isIp) :
    (∀ r v, lastWrite rs r = some v → (s.retire ws).regs.get r = v) ∧
      (∀ r, r ≠ .ip → lastWrite rs r = none → (s.retire ws).regs.get r = s.regs.get r) := by
  constructor
  · intro r v h
    by_cases hip : r = .ip
    · subst hip
      rw [State.retire_of_ip_written s (by rw [hi, any_isIp_regWrites, h]; rfl), hc, State.commit_regWrites_get, h]
      rfl
    · rw [State.retire_get_of_ne_ip _ _ hip, hc, State.commit_regWrites_get, h]
      rfl
  · intro r hip h
    rw [State.retire_get_of_ne_ip _ _ hip, hc, State.commit_regWrites_get, h, hr]
    rfl

/-- An instruction that collects register writes only completes with them and with memory as it was. -/
theorem completesInRegs_of {i : Instr} {s : State} {ws : List (Reg × Word)}
    (h : exec i s = finish s (.ok (regWrites ws))) : CompletesInRegs i s ws := by
  obtain ⟨h1, h2⟩ := State.retire_regs_of (s := s) (s' := s) (ws := regWrites ws) (rs := ws) rfl rfl rfl
  refine ⟨s.retire (regWrites ws), ⟨h, by simp, by simp, h1, h2⟩, ?_, fun a => ?_⟩ <;>
    simp [State.retire_mem]

/-- An instruction that collects one store and then register writes completes with them and with the store. -/
theorem completesStoring_of {i : Instr} {s : State} {ws : List (Reg × Word)} {addr : Word} {n : Nat} {v : Word}
    (hm : s.mem.wf) (hb : addr.toNat + n ≤ s.mem.capacity)
    (h : exec i s = finish s (.ok (.mem addr n v :: regWrites ws))) : CompletesStoring i s ws addr n v := by
  obtain ⟨h1, h2⟩ := State.retire_regs_of (s := s) (s' := s.applyWrite (.mem addr n v))
    (ws := .mem addr n v :: regWrites ws) (rs := ws) rfl rfl rfl
  refine ⟨s.retire (.mem addr n v :: regWrites ws), ⟨h, by simp, by simp, h1, h2⟩, ?_, fun k hk => ?_, fun a ha => ?_⟩
  · simp [State.retire_mem]
  · simpa [State.retire_mem] using Memory.readByte_writeSpan_inside hm addr.toNat n v hk hb
  · simpa [State.retire_mem] using Memory.readByte_writeSpan_outside s.mem addr.toNat n v ha

/-- An instruction whose effect is a fault takes it. -/
theorem takesFault_of {i : Instr} {s : State} {k : Fault} (h : exec i s = finish s (.error k)) : TakesFault i s k :=
  h

/-- `execute(i, S)` of R88, for proofs: the fault or the writes of each instruction, before they are taken or
committed. -/
def execute (i : Instr) (s : State) : Effect :=
  match i with
  | .nop => .ok []
  | .loadImm rd v => withReg rd fun dst => .ok [.reg dst v]
  | .loadMem rd w v =>
    withReg rd fun dst => withSize w fun n => withSpan s v n (.ok [.reg dst (s.load v n)])
  | .storeReg rd rs => withReg rd fun dst => withReg rs fun r => .ok [.reg dst (s.regs.get r)]
  | .storeMem rd w v =>
    withReg rd fun dst => withSize w fun n => withSpan s v n (.ok [.mem v n (s.regs.get dst)])
  | .addReg rd rs => withReg rd fun dst => withReg rs fun r => .ok [.reg dst ((s.regs.get dst) + (s.regs.get r))]
  | .addImm rd v => withReg rd fun dst => .ok [.reg dst ((s.regs.get dst) + v)]
  | .subReg rd rs => withReg rd fun dst => withReg rs fun r => .ok [.reg dst ((s.regs.get dst) - (s.regs.get r))]
  | .subImm rd v => withReg rd fun dst => .ok [.reg dst ((s.regs.get dst) - v)]
  | .mulu rd rs => withReg rd fun dst => withReg rs fun r => .ok [.reg .e (mulUnsigned (s.regs.get dst) (s.regs.get r))]
  | .muls rd rs => withReg rd fun dst => withReg rs fun r => .ok [.reg .e (mulSigned (s.regs.get dst) (s.regs.get r))]
  | .divu rd rs => withReg rd fun dst => withReg rs fun r =>
    if s.regs.get r = 0#32 then .error .divideByZero
    else .ok [.reg .e (remUnsigned (s.regs.get dst) (s.regs.get r)), .reg .f (quotUnsigned (s.regs.get dst) (s.regs.get r))]
  | .divs rd rs => withReg rd fun dst => withReg rs fun r =>
    if s.regs.get r = 0#32 then .error .divideByZero
    else .ok [.reg .e (remSigned (s.regs.get dst) (s.regs.get r)), .reg .f (quotSigned (s.regs.get dst) (s.regs.get r))]
  | .orReg rd rs => withReg rd fun dst => withReg rs fun r => .ok [.reg .c ((s.regs.get dst) ||| (s.regs.get r))]
  | .orImm rd v => withReg rd fun dst => .ok [.reg .c ((s.regs.get dst) ||| v)]
  | .andReg rd rs => withReg rd fun dst => withReg rs fun r => .ok [.reg .c ((s.regs.get dst) &&& (s.regs.get r))]
  | .andImm rd v => withReg rd fun dst => .ok [.reg .c ((s.regs.get dst) &&& v)]
  | .xorReg rd rs => withReg rd fun dst => withReg rs fun r => .ok [.reg .c ((s.regs.get dst) ^^^ (s.regs.get r))]
  | .xorImm rd v => withReg rd fun dst => .ok [.reg .c ((s.regs.get dst) ^^^ v)]
  | .notReg rd => withReg rd fun dst => .ok [.reg .c (~~~ (s.regs.get dst))]
  | .notImm v => .ok [.reg .c (~~~ v)]
  | .shrReg rd rs => withReg rd fun dst => withReg rs fun r => .ok [.reg .c (shiftRight (s.regs.get dst) (s.regs.get r))]
  | .shrImm rd v => withReg rd fun dst => .ok [.reg .c (shiftRight (s.regs.get dst) v)]
  | .shlReg rd rs => withReg rd fun dst => withReg rs fun r => .ok [.reg .c (shiftLeft (s.regs.get dst) (s.regs.get r))]
  | .shlImm rd v => withReg rd fun dst => .ok [.reg .c (shiftLeft (s.regs.get dst) v)]
  | .pop rd => withReg rd fun dst =>
    withSpan s (s.regs.sp - 4#32) 4
      (.ok [.reg .sp (s.regs.sp - 4#32), .reg dst (s.load (s.regs.sp - 4#32) 4)])
  | .push rd w => withReg rd fun dst => withSize w fun n =>
    withSpan s s.regs.sp n (.ok [.mem s.regs.sp n (s.regs.get dst), .reg .sp (s.regs.sp - 4#32)])
  | .jzReg rd => withReg rd fun dst => jumpTo s .zero (s.regs.get dst)
  | .jnsReg rd => withReg rd fun dst => jumpTo s .notSign (s.regs.get dst)
  | .jsReg rd => withReg rd fun dst => jumpTo s .sign (s.regs.get dst)
  | .jmpReg rd => withReg rd fun dst => jumpTo s .always (s.regs.get dst)
  | .jzImm v => jumpTo s .zero v
  | .jnsImm v => jumpTo s .notSign v
  | .jsImm v => jumpTo s .sign v
  | .jmpImm v => jumpTo s .always v

/-- Every meaning ends in `finish`: it takes a fault or commits its writes, and never stops the machine. -/
theorem exec_eq_finish (i : Instr) (s : State) : exec i s = finish s (execute i s) := by
  cases i <;> rfl

/-- The two ends of every instruction. -/
theorem exec_cases (i : Instr) (s : State) :
    (∃ k, exec i s = .next (s.takeFault k)) ∨ ∃ ws, exec i s = .next (s.retire ws) := by
  rw [exec_eq_finish]
  rcases finish_cases s (execute i s) with ⟨k, -, h⟩ | ⟨ws, -, h⟩
  · exact .inl ⟨k, h⟩
  · exact .inr ⟨ws, h⟩

/-- An instruction that gives a next state took a fault or committed the writes it collected. -/
theorem exec_next_cases {i : Instr} {s t : State} (h : exec i s = .next t) :
    (∃ k, execute i s = .error k ∧ t = s.takeFault k) ∨ ∃ ws, execute i s = .ok ws ∧ t = s.retire ws := by
  rw [exec_eq_finish] at h
  rcases finish_cases s (execute i s) with ⟨k, hk, h'⟩ | ⟨ws, hw, h'⟩ <;> rw [h, Host.Outcome.next.injEq] at h'
  · exact .inl ⟨k, hk, h'⟩
  · exact .inr ⟨ws, hw, h'⟩

/-- What every instruction leaves: `last`, the capacity, and the canonical form; and its latch is the old one or a fault
taken with nothing else changed. -/
theorem exec_frame {i : Instr} {s t : State} (h : exec i s = .next t) :
    t.last = s.last ∧ t.mem.capacity = s.mem.capacity ∧ (s.mem.wf → t.mem.wf) ∧
      (t.latch = s.latch ∨ ∃ k, t = s.takeFault k) := by
  rcases exec_next_cases h with ⟨k, -, rfl⟩ | ⟨ws, -, rfl⟩
  · exact ⟨rfl, rfl, id, .inr ⟨k, rfl⟩⟩
  · refine ⟨by simp, by simp [State.retire_mem], fun hm => ?_, .inl (by simp)⟩
    rw [State.retire_mem]
    exact State.commit_wf hm ws

end Sys2Proof.Machine
end

