-- ==== Sys2Proof/Laws/PerInstr.lean ====
section
/-! SUPPORT. Statements about every instruction as syntax, one lemma per constructor. -/

namespace Sys2Proof.Laws

/-- The record an instruction is encoded from has an opcode of the closed enumeration, 0 to 14 (R63), and the encoding
is one six-byte word (R60). -/
def EncodedRecord.Statement (i : Instr) : Prop :=
  i.toInstruction.opcode.toNat ≤ 14 ∧ (encode i).length = Config.instrBytes

theorem EncodedRecord.nop : EncodedRecord.Statement (.nop) :=
  ⟨by simp [Instr.toInstruction], rfl⟩

theorem EncodedRecord.loadImm (rd : RegField) (v : Word) : EncodedRecord.Statement (.loadImm rd v) :=
  ⟨by simp [Instr.toInstruction], rfl⟩

theorem EncodedRecord.loadMem (rd : RegField) (w : WidthField) (v : Word) : EncodedRecord.Statement (.loadMem rd w v) :=
  ⟨by simp [Instr.toInstruction], rfl⟩

theorem EncodedRecord.storeReg (rd : RegField) (rs : RegField) : EncodedRecord.Statement (.storeReg rd rs) :=
  ⟨by simp [Instr.toInstruction], rfl⟩

theorem EncodedRecord.storeMem (rd : RegField) (w : WidthField) (v : Word) : EncodedRecord.Statement (.storeMem rd w v) :=
  ⟨by simp [Instr.toInstruction], rfl⟩

theorem EncodedRecord.addReg (rd : RegField) (rs : RegField) : EncodedRecord.Statement (.addReg rd rs) :=
  ⟨by simp [Instr.toInstruction], rfl⟩

theorem EncodedRecord.addImm (rd : RegField) (v : Word) : EncodedRecord.Statement (.addImm rd v) :=
  ⟨by simp [Instr.toInstruction], rfl⟩

theorem EncodedRecord.subReg (rd : RegField) (rs : RegField) : EncodedRecord.Statement (.subReg rd rs) :=
  ⟨by simp [Instr.toInstruction], rfl⟩

theorem EncodedRecord.subImm (rd : RegField) (v : Word) : EncodedRecord.Statement (.subImm rd v) :=
  ⟨by simp [Instr.toInstruction], rfl⟩

theorem EncodedRecord.mulu (rd : RegField) (rs : RegField) : EncodedRecord.Statement (.mulu rd rs) :=
  ⟨by simp [Instr.toInstruction], rfl⟩

theorem EncodedRecord.muls (rd : RegField) (rs : RegField) : EncodedRecord.Statement (.muls rd rs) :=
  ⟨by simp [Instr.toInstruction], rfl⟩

theorem EncodedRecord.divu (rd : RegField) (rs : RegField) : EncodedRecord.Statement (.divu rd rs) :=
  ⟨by simp [Instr.toInstruction], rfl⟩

theorem EncodedRecord.divs (rd : RegField) (rs : RegField) : EncodedRecord.Statement (.divs rd rs) :=
  ⟨by simp [Instr.toInstruction], rfl⟩

theorem EncodedRecord.orReg (rd : RegField) (rs : RegField) : EncodedRecord.Statement (.orReg rd rs) :=
  ⟨by simp [Instr.toInstruction], rfl⟩

theorem EncodedRecord.orImm (rd : RegField) (v : Word) : EncodedRecord.Statement (.orImm rd v) :=
  ⟨by simp [Instr.toInstruction], rfl⟩

theorem EncodedRecord.andReg (rd : RegField) (rs : RegField) : EncodedRecord.Statement (.andReg rd rs) :=
  ⟨by simp [Instr.toInstruction], rfl⟩

theorem EncodedRecord.andImm (rd : RegField) (v : Word) : EncodedRecord.Statement (.andImm rd v) :=
  ⟨by simp [Instr.toInstruction], rfl⟩

theorem EncodedRecord.xorReg (rd : RegField) (rs : RegField) : EncodedRecord.Statement (.xorReg rd rs) :=
  ⟨by simp [Instr.toInstruction], rfl⟩

theorem EncodedRecord.xorImm (rd : RegField) (v : Word) : EncodedRecord.Statement (.xorImm rd v) :=
  ⟨by simp [Instr.toInstruction], rfl⟩

theorem EncodedRecord.notReg (rd : RegField) : EncodedRecord.Statement (.notReg rd) :=
  ⟨by simp [Instr.toInstruction], rfl⟩

theorem EncodedRecord.notImm (v : Word) : EncodedRecord.Statement (.notImm v) :=
  ⟨by simp [Instr.toInstruction], rfl⟩

theorem EncodedRecord.shrReg (rd : RegField) (rs : RegField) : EncodedRecord.Statement (.shrReg rd rs) :=
  ⟨by simp [Instr.toInstruction], rfl⟩

theorem EncodedRecord.shrImm (rd : RegField) (v : Word) : EncodedRecord.Statement (.shrImm rd v) :=
  ⟨by simp [Instr.toInstruction], rfl⟩

theorem EncodedRecord.shlReg (rd : RegField) (rs : RegField) : EncodedRecord.Statement (.shlReg rd rs) :=
  ⟨by simp [Instr.toInstruction], rfl⟩

theorem EncodedRecord.shlImm (rd : RegField) (v : Word) : EncodedRecord.Statement (.shlImm rd v) :=
  ⟨by simp [Instr.toInstruction], rfl⟩

theorem EncodedRecord.pop (rd : RegField) : EncodedRecord.Statement (.pop rd) :=
  ⟨by simp [Instr.toInstruction], rfl⟩

theorem EncodedRecord.push (rd : RegField) (w : WidthField) : EncodedRecord.Statement (.push rd w) :=
  ⟨by simp [Instr.toInstruction], rfl⟩

theorem EncodedRecord.jzReg (rd : RegField) : EncodedRecord.Statement (.jzReg rd) :=
  ⟨by simp [Instr.toInstruction], rfl⟩

theorem EncodedRecord.jnsReg (rd : RegField) : EncodedRecord.Statement (.jnsReg rd) :=
  ⟨by simp [Instr.toInstruction], rfl⟩

theorem EncodedRecord.jsReg (rd : RegField) : EncodedRecord.Statement (.jsReg rd) :=
  ⟨by simp [Instr.toInstruction], rfl⟩

theorem EncodedRecord.jmpReg (rd : RegField) : EncodedRecord.Statement (.jmpReg rd) :=
  ⟨by simp [Instr.toInstruction], rfl⟩

theorem EncodedRecord.jzImm (v : Word) : EncodedRecord.Statement (.jzImm v) :=
  ⟨by simp [Instr.toInstruction], rfl⟩

theorem EncodedRecord.jnsImm (v : Word) : EncodedRecord.Statement (.jnsImm v) :=
  ⟨by simp [Instr.toInstruction], rfl⟩

theorem EncodedRecord.jsImm (v : Word) : EncodedRecord.Statement (.jsImm v) :=
  ⟨by simp [Instr.toInstruction], rfl⟩

theorem EncodedRecord.jmpImm (v : Word) : EncodedRecord.Statement (.jmpImm v) :=
  ⟨by simp [Instr.toInstruction], rfl⟩

end Sys2Proof.Laws
end

