-- ==== Sys2Proof/Tests/Slice0.lean ====
section
/-! SUPPORT. The model's own tests: decoding of words written out from the spec's encodings, one-step vectors of
spec/95_test_vectors.md, the well-formedness smoke, and witnesses for the hypotheses of the statements. -/

namespace Sys2Proof.Tests

open Sys2Proof.Machine

/-! Helpers -/

/-- A healthy core of 8192 bytes with these registers, these listed bytes and this code at `ip`. -/
def mk (x : Regs) (cells : List Host.Cell) (code : List Byte) : State where
  regs := x
  mem := (Memory.mk 8192 cells).writeBytes x.ip.toNat code
  latch := none
  last := none

/-- Registers all 0 but `a`, `b`, `c`. -/
def abc (a b c : Word) : Regs :=
  { Regs.zero with a := a, b := b, c := c }

/-- What one step leaves, seen through `f`. -/
def after {α : Type} (s : State) (f : State → α) : Option α :=
  match step s with
  | .next t => some (f t)
  | .fault _ => none
  | .refused _ => none

/-- The latch, and whether the registers and memory are as they were. -/
def faultOf (s : State) : Option (Option Fault × Bool) :=
  after s fun t => (t.latch, decide (t.regs = s.regs ∧ t.mem = s.mem))

/-! Decoding: bytes from the encodings of the rules and of 95_test_vectors.md -/

theorem test_decode_nop_any_mode :
    decode [0x20#8, 0xFF#8, 1#8, 2#8, 3#8, 4#8, 9#8] = .ok (.nop, [9#8]) := by decide
theorem test_decode_nop : decode [0x00#8, 0#8, 0#8, 0#8, 0#8, 0#8] = .ok (.nop, []) := by decide
theorem test_decode_load : decode [0x01#8, 0x04#8, 0xFE#8, 0xFF#8, 0xFD#8, 0x7F#8] = .ok (.loadImm 4#4 0x7FFDFFFE#32, []) := by
  decide
theorem test_decode_load_width_ignored : decode [0xC1#8, 0#8, 5#8, 0#8, 0#8, 0#8] = .ok (.loadImm 0#4 5#32, []) := by decide
theorem test_decode_load_mem : decode [0x61#8, 0x01#8, 0x64#8, 0#8, 0#8, 0#8] = .ok (.loadMem 1#4 1#2 100#32, []) := by decide
theorem test_decode_store : decode [0x02#8, 0x80#8, 0#8, 0#8, 0#8, 0#8] = .ok (.storeReg 0#4 8#4, []) := by decide
theorem test_decode_store_mem : decode [0xA2#8, 0x03#8, 0x64#8, 0#8, 0#8, 0#8] = .ok (.storeMem 3#4 2#2 100#32, []) := by decide
theorem test_decode_add : decode [0x03#8, 0x10#8, 0#8, 0#8, 0#8, 0#8] = .ok (.addReg 0#4 1#4, []) := by decide
theorem test_decode_add_imm : decode [0x23#8, 0x08#8, 0x0C#8, 0#8, 0#8, 0#8] = .ok (.addImm 8#4 12#32, []) := by decide
theorem test_decode_sub : decode [0x04#8, 0x21#8, 0#8, 0#8, 0#8, 0#8] = .ok (.subReg 1#4 2#4, []) := by decide
theorem test_decode_sub_imm : decode [0x24#8, 0#8, 1#8, 0#8, 0#8, 0#8] = .ok (.subImm 0#4 1#32, []) := by decide
theorem test_decode_mulu : decode [0x05#8, 0x10#8, 0#8, 0#8, 0#8, 0#8] = .ok (.mulu 0#4 1#4, []) := by decide
theorem test_decode_muls : decode [0x25#8, 0x10#8, 0#8, 0#8, 0#8, 0#8] = .ok (.muls 0#4 1#4, []) := by decide
theorem test_decode_divu : decode [0x06#8, 0x30#8, 0#8, 0#8, 0#8, 0#8] = .ok (.divu 0#4 3#4, []) := by decide
theorem test_decode_divs : decode [0x26#8, 0x14#8, 0#8, 0#8, 0#8, 0#8] = .ok (.divs 4#4 1#4, []) := by decide
theorem test_decode_or : decode [0x07#8, 0x10#8, 0#8, 0#8, 0#8, 0#8] = .ok (.orReg 0#4 1#4, []) := by decide
theorem test_decode_or_imm : decode [0x27#8, 0#8, 0#8, 0#8, 0#8, 0x80#8] = .ok (.orImm 0#4 0x80000000#32, []) := by decide
theorem test_decode_and : decode [0x08#8, 0x10#8, 0#8, 0#8, 0#8, 0#8] = .ok (.andReg 0#4 1#4, []) := by decide
theorem test_decode_and_imm : decode [0x28#8, 0#8, 0xFF#8, 0#8, 0#8, 0#8] = .ok (.andImm 0#4 0xFF#32, []) := by decide
theorem test_decode_xor : decode [0x09#8, 0x10#8, 0#8, 0#8, 0#8, 0#8] = .ok (.xorReg 0#4 1#4, []) := by decide
theorem test_decode_xor_imm : decode [0x29#8, 0x02#8, 0xFF#8, 0#8, 0#8, 0#8] = .ok (.xorImm 2#4 0xFF#32, []) := by decide
theorem test_decode_not : decode [0x0A#8, 0xF0#8, 0#8, 0#8, 0#8, 0#8] = .ok (.notReg 0#4, []) := by decide
theorem test_decode_not_imm : decode [0x2A#8, 0#8, 0x0F#8, 0#8, 0#8, 0#8] = .ok (.notImm 0x0F#32, []) := by decide
theorem test_decode_shr : decode [0x0B#8, 0x10#8, 0#8, 0#8, 0#8, 0#8] = .ok (.shrReg 0#4 1#4, []) := by decide
theorem test_decode_shr_imm : decode [0x2B#8, 0x03#8, 2#8, 0#8, 0#8, 0#8] = .ok (.shrImm 3#4 2#32, []) := by decide
theorem test_decode_shl : decode [0x0C#8, 0x10#8, 0#8, 0#8, 0#8, 0#8] = .ok (.shlReg 0#4 1#4, []) := by decide
theorem test_decode_shl_imm : decode [0x2C#8, 0#8, 4#8, 0#8, 0#8, 0#8] = .ok (.shlImm 0#4 4#32, []) := by decide
theorem test_decode_pop : decode [0xCD#8, 0x01#8, 0#8, 0#8, 0#8, 0#8] = .ok (.pop 1#4, []) := by decide
theorem test_decode_push : decode [0x6D#8, 0x06#8, 0#8, 0#8, 0#8, 0#8] = .ok (.push 6#4 1#2, []) := by decide
theorem test_decode_jz : decode [0x0E#8, 0x02#8, 0#8, 0#8, 0#8, 0#8] = .ok (.jzReg 2#4, []) := by decide
theorem test_decode_jns : decode [0x4E#8, 0x01#8, 0#8, 0#8, 0#8, 0#8] = .ok (.jnsReg 1#4, []) := by decide
theorem test_decode_js : decode [0x8E#8, 0x01#8, 0#8, 0#8, 0#8, 0#8] = .ok (.jsReg 1#4, []) := by decide
theorem test_decode_jmp : decode [0xCE#8, 0x08#8, 0#8, 0#8, 0#8, 0#8] = .ok (.jmpReg 8#4, []) := by decide
theorem test_decode_jz_imm : decode [0x2E#8, 0#8, 0x28#8, 0#8, 0#8, 0#8] = .ok (.jzImm 40#32, []) := by decide
theorem test_decode_jns_imm : decode [0x6E#8, 0#8, 0x28#8, 0#8, 0#8, 0#8] = .ok (.jnsImm 40#32, []) := by decide
theorem test_decode_js_imm : decode [0xAE#8, 0#8, 0x28#8, 0#8, 0#8, 0#8] = .ok (.jsImm 40#32, []) := by decide
theorem test_decode_jmp_imm : decode [0xEE#8, 0#8, 0x2A#8, 0#8, 0#8, 0#8] = .ok (.jmpImm 42#32, []) := by decide
theorem test_decode_unknown_15 :
    decode [0x0F#8, 0#8, 0#8, 0#8, 0#8, 0#8] = .error (.unknownOpcode 15#5) := by decide
theorem test_decode_unknown_31 :
    decode [0x3F#8, 0xFF#8, 0#8, 0#8, 0#8, 0#8] = .error (.unknownOpcode 31#5) := by decide
theorem test_decode_truncated : decode [0x00#8, 0#8, 0#8, 0#8, 0#8] = .error .truncated := by decide
/-- V1: fields (14, 1, 3, 0, 0, 42) are the bytes `EE 00 2A 00 00 00`, both ways. -/
theorem test_v1_encode : (⟨14#5, 1#1, 3#2, 0#4, 0#4, 42#32⟩ : Instruction).encode =
    [0xEE#8, 0x00#8, 0x2A#8, 0x00#8, 0x00#8, 0x00#8] := by decide
theorem test_encode_push : encode (.push 6#4 2#2) = [0xAD#8, 0x06#8, 0#8, 0#8, 0#8, 0#8] := by decide
theorem test_table_word : decodeTableWord 48 0x000000643122 = some (.storeMem 1#4 0#2 100#32) := by decide
theorem test_table_word_short : decodeTableWord 8 0x21 = some (.loadMem 0#4 0#2 0#32) := by decide

/-! Well-formedness: one ill-formed term for each check -/

theorem test_wf_smoke_good : (Instr.storeReg 8#4 8#4).wellFormed = true := by decide
theorem test_wf_refuses_dest_9 : (Instr.loadImm 9#4 5#32).wellFormed = false := by decide
theorem test_wf_refuses_src_15 : (Instr.addReg 0#4 15#4).wellFormed = false := by decide
theorem test_wf_refuses_size_3 : (Instr.push 0#4 3#2).wellFormed = false := by decide

/-! Data movement (95_test_vectors.md 2.1) -/

theorem test_nop_junk : after (mk Regs.zero [] [0xE0#8, 0xFF#8, 1#8, 2#8, 3#8, 4#8]) (·.regs) =
    some { Regs.zero with ip := 6#32 } := by decide
theorem test_load_imm : after (mk Regs.zero [] [0x01#8, 0#8, 5#8, 0#8, 0#8, 0#8]) (fun t => (t.regs.a, t.regs.ip)) =
    some (5#32, 6#32) := by decide
theorem test_load_ip_no_advance : after (mk Regs.zero [] [0x01#8, 8#8, 120#8, 0#8, 0#8, 0#8]) (·.regs.ip) =
    some 120#32 := by decide
theorem test_load_index_fault : faultOf (mk Regs.zero [] [0x01#8, 9#8, 5#8, 0#8, 0#8, 0#8]) =
    some (some .indexFault, true) := by decide
theorem test_load_word_zero_extends :
    after (mk Regs.zero [(100, 0xFF#8), (101, 0x80#8)] [0x61#8, 1#8, 0x64#8, 0#8, 0#8, 0#8]) (·.regs.b) =
      some 0x80FF#32 := by decide
theorem test_load_byte_no_wrap : faultOf (mk Regs.zero [] [0x21#8, 1#8, 0xFF#8, 0xFF#8, 0xFF#8, 0xFF#8]) =
    some (some .memoryFault, true) := by decide
theorem test_load_top_dword : after (mk Regs.zero [(8188, 1#8)] [0xA1#8, 1#8, 0xFC#8, 0x1F#8, 0#8, 0#8]) (·.regs.b) =
    some 1#32 := by decide
theorem test_store_copies_ip : after (mk { Regs.zero with ip := 60#32 } [] [0x02#8, 0x80#8, 0#8, 0#8, 0#8, 0#8])
    (fun t => (t.regs.a, t.regs.ip)) = some (60#32, 66#32) := by decide
theorem test_store_word_top : after (mk (abc 0x11223344#32 0#32 0#32) [] [0x62#8, 0#8, 0xFE#8, 0x1F#8, 0#8, 0#8])
    (fun t => (t.mem.readByte 8190, t.mem.readByte 8191)) = some (0x44#8, 0x33#8) := by decide
theorem test_store_word_past_top : faultOf (mk (abc 0x11223344#32 0#32 0#32) []
    [0x62#8, 0#8, 0xFF#8, 0x1F#8, 0#8, 0#8]) = some (some .memoryFault, true) := by decide

/-! Arithmetic (2.2) -/

theorem test_add_wraps : after (mk (abc 0xFFFFFFFF#32 1#32 0#32) [] [0x03#8, 0x10#8, 0#8, 0#8, 0#8, 0#8])
    (fun t => (t.regs.a, t.latch)) = some (0#32, none) := by decide
theorem test_add_imm_ip : after (mk Regs.zero [] [0x23#8, 8#8, 0x0C#8, 0#8, 0#8, 0#8]) (·.regs.ip) = some 12#32 := by decide
theorem test_sub_wraps : after (mk (abc 0#32 1#32 0#32) [] [0x04#8, 0x10#8, 0#8, 0#8, 0#8, 0#8]) (·.regs.a) =
    some 0xFFFFFFFF#32 := by decide
theorem test_sub_imm : after (mk (abc 3#32 0#32 0#32) [] [0x24#8, 0#8, 1#8, 0#8, 0#8, 0#8]) (·.regs.a) = some 2#32 := by
  decide
theorem test_mulu_low_half : after (mk (abc 0xFFFFFFFF#32 0xFFFFFFFF#32 0#32) [] [0x05#8, 0x10#8, 0#8, 0#8, 0#8, 0#8])
    (fun t => (t.regs.e, t.regs.f)) = some (1#32, 0#32) := by decide
theorem test_muls_negative : after (mk (abc 0xFFFFFFFD#32 5#32 0#32) [] [0x25#8, 0x10#8, 0#8, 0#8, 0#8, 0#8])
    (·.regs.e) = some 0xFFFFFFF1#32 := by decide
theorem test_divu_unsigned : after (mk (abc 0xFFFFFFF9#32 2#32 0#32) [] [0x06#8, 0x10#8, 0#8, 0#8, 0#8, 0#8])
    (fun t => (t.regs.e, t.regs.f)) = some (1#32, 0x7FFFFFFC#32) := by decide
theorem test_divu_reads_first : after (mk { Regs.zero with b := 3#32, e := 7#32 } []
    [0x06#8, 0x14#8, 0#8, 0#8, 0#8, 0#8]) (fun t => (t.regs.e, t.regs.f)) = some (1#32, 2#32) := by decide
theorem test_divs_toward_zero : after (mk (abc 0xFFFFFFF9#32 2#32 0#32) [] [0x26#8, 0x10#8, 0#8, 0#8, 0#8, 0#8])
    (fun t => (t.regs.e, t.regs.f)) = some (0xFFFFFFFF#32, 0xFFFFFFFD#32) := by decide
theorem test_divs_int_min : after (mk (abc 0x80000000#32 0xFFFFFFFF#32 0#32) [] [0x26#8, 0x10#8, 0#8, 0#8, 0#8, 0#8])
    (fun t => (t.regs.e, t.regs.f)) = some (0#32, 0x80000000#32) := by decide
/-- V5: the divisor 0 faults and mutates neither `e` nor `f`. -/
theorem test_div_by_zero : faultOf (mk { Regs.zero with a := 7#32, e := 0x55#32, f := 0x55#32 } []
    [0x06#8, 0x10#8, 0#8, 0#8, 0#8, 0#8]) = some (some .divideByZero, true) := by decide

/-! Logic and shifts (2.3) -/

theorem test_or_to_c : after (mk (abc 0xF0#32 0x0F#32 0#32) [] [0x07#8, 0x10#8, 0#8, 0#8, 0#8, 0#8])
    (fun t => (t.regs.a, t.regs.c)) = some (0xF0#32, 0xFF#32) := by decide
theorem test_or_imm : after (mk (abc 0#32 0#32 9#32) [] [0x27#8, 0#8, 0#8, 0#8, 0#8, 0#8]) (·.regs.c) = some 0#32 := by
  decide
theorem test_and : after (mk (abc 0x1234#32 0xFF#32 0#32) [] [0x08#8, 0x10#8, 0#8, 0#8, 0#8, 0#8]) (·.regs.c) =
    some 0x34#32 := by decide
theorem test_and_imm : after (mk (abc 0x1234#32 0#32 0#32) [] [0x28#8, 0#8, 0xFF#8, 0#8, 0#8, 0#8]) (·.regs.c) =
    some 0x34#32 := by decide
theorem test_xor_equal : after (mk (abc 5#32 5#32 9#32) [] [0x09#8, 0x10#8, 0#8, 0#8, 0#8, 0#8]) (·.regs.c) =
    some 0#32 := by decide
theorem test_xor_imm_c : after (mk (abc 0#32 0#32 0x0F#32) [] [0x29#8, 2#8, 0xFF#8, 0#8, 0#8, 0#8]) (·.regs.c) =
    some 0xF0#32 := by decide
theorem test_not_unused_src : after (mk Regs.zero [] [0x0A#8, 0xF0#8, 0#8, 0#8, 0#8, 0#8]) (·.regs.c) =
    some 0xFFFFFFFF#32 := by decide
theorem test_not_imm : after (mk Regs.zero [] [0x2A#8, 0xFF#8, 0x0F#8, 0#8, 0#8, 0#8]) (·.regs.c) =
    some 0xFFFFFFF0#32 := by decide
theorem test_shr_logical : after (mk (abc 0x80000000#32 31#32 0#32) [] [0x0B#8, 0x10#8, 0#8, 0#8, 0#8, 0#8])
    (·.regs.c) = some 1#32 := by decide
theorem test_shr_imm_32 : after (mk (abc 0xFFFFFFFF#32 0#32 9#32) [] [0x2B#8, 0#8, 0x20#8, 0#8, 0#8, 0#8]) (·.regs.c) =
    some 0#32 := by decide
theorem test_shl_32 : after (mk (abc 1#32 32#32 9#32) [] [0x0C#8, 0x10#8, 0#8, 0#8, 0#8, 0#8]) (·.regs.c) =
    some 0#32 := by decide
theorem test_shl_imm_31 : after (mk (abc 3#32 0#32 0#32) [] [0x2C#8, 0#8, 0x1F#8, 0#8, 0#8, 0#8]) (·.regs.c) =
    some 0x80000000#32 := by decide

/-! Stack (2.4) -/

theorem test_push_byte : after (mk { Regs.zero with a := 0x11223344#32, sp := 100#32 } []
    [0x2D#8, 0#8, 0#8, 0#8, 0#8, 0#8]) (fun t => (t.regs.sp, t.mem.readByte 100, t.mem.readByte 101)) =
      some (96#32, 0x44#8, 0#8) := by decide
theorem test_push_sp_old_value : after (mk { Regs.zero with sp := 100#32 } [] [0xAD#8, 6#8, 0#8, 0#8, 0#8, 0#8])
    (fun t => (t.regs.sp, t.mem.readByte 100)) = some (96#32, 100#8) := by decide
theorem test_pop : after (mk { Regs.zero with sp := 100#32 } [(96, 7#8)] [0x0D#8, 1#8, 0#8, 0#8, 0#8, 0#8])
    (fun t => (t.regs.sp, t.regs.b)) = some (96#32, 7#32) := by decide
theorem test_pop_sp_loaded_wins : after (mk { Regs.zero with sp := 100#32 } [(96, 0x10#8)]
    [0x0D#8, 6#8, 0#8, 0#8, 0#8, 0#8]) (·.regs.sp) = some 0x10#32 := by decide

/-! Control (2.5) -/

theorem test_jz_taken : after (mk (abc 0#32 0#32 0#32) [] [0x2E#8, 0#8, 40#8, 0#8, 0#8, 0#8]) (·.regs.ip) =
    some 40#32 := by decide
theorem test_jz_not_taken : after (mk (abc 0#32 0#32 1#32) [] [0x2E#8, 0#8, 40#8, 0#8, 0#8, 0#8]) (·.regs.ip) =
    some 6#32 := by decide
theorem test_jz_checked_untaken : faultOf (mk (abc 0#32 0#32 1#32) [] [0x2E#8, 0#8, 0xFB#8, 0x1F#8, 0#8, 0#8]) =
    some (some .memoryFault, true) := by decide
theorem test_jns_negative : after (mk (abc 0#32 0#32 0x80000000#32) [] [0x6E#8, 0#8, 40#8, 0#8, 0#8, 0#8])
    (·.regs.ip) = some 6#32 := by decide
theorem test_js_negative : after (mk (abc 0#32 0#32 0x80000000#32) [] [0xAE#8, 0#8, 40#8, 0#8, 0#8, 0#8])
    (·.regs.ip) = some 40#32 := by decide
theorem test_jmp_last_legal : after (mk Regs.zero [] [0xEE#8, 0#8, 0xFA#8, 0x1F#8, 0#8, 0#8]) (·.regs.ip) =
    some 8186#32 := by decide
theorem test_jmp_reg : after (mk (abc 0#32 30#32 0#32) [] [0xCE#8, 1#8, 0#8, 0#8, 0#8, 0#8]) (·.regs.ip) =
    some 30#32 := by decide
theorem test_jz_reg_c : after (mk Regs.zero [] [0x0E#8, 2#8, 0#8, 0#8, 0#8, 0#8]) (·.regs.ip) = some 0#32 := by decide
theorem test_jns_reg : after (mk (abc 0#32 30#32 5#32) [] [0x4E#8, 1#8, 0#8, 0#8, 0#8, 0#8]) (·.regs.ip) =
    some 30#32 := by decide
theorem test_js_reg : after (mk (abc 0#32 30#32 0#32) [] [0x8E#8, 1#8, 0#8, 0#8, 0#8, 0#8]) (·.regs.ip) =
    some 6#32 := by decide

/-! Decoder and fault priority (2.6) -/

theorem test_opcode_before_index : faultOf (mk Regs.zero [] [0x1F#8, 0xFF#8, 0#8, 0#8, 0#8, 0#8]) =
    some (some .opcodeFault, true) := by decide
theorem test_index_before_width : faultOf (mk Regs.zero [] [0xE1#8, 0x0A#8, 0#8, 0#8, 0#8, 0#8]) =
    some (some .indexFault, true) := by decide
theorem test_push_width_3 : faultOf (mk { Regs.zero with sp := 100#32 } [] [0xED#8, 0#8, 0#8, 0#8, 0#8, 0#8]) =
    some (some .opcodeFault, true) := by decide
/-- V11: a fetch at `capacity - 1` faults, and `last` stays None. -/
theorem test_fetch_fault : after { State.reset with regs := { Regs.zero with ip := 8191#32 } }
    (fun t => (t.latch, t.last)) = some (some .memoryFault, none) := by decide
theorem test_placed_word_runs : after (State.reset.withFetchWord 48 0x000000050001) (fun t => (t.regs.a, t.regs.ip)) =
    some (5#32, 6#32) := by decide

/-! Witnesses: for every statement with hypotheses or clauses, concrete states and operands that meet them, at the
boundary values of each clause, and the latch that `exec` leaves there. -/

/-- A record with these selecting fields, `dest` 8, `src` 9 and value 5. -/
def record (opcode : BitVec 5) (mode : BitVec 1) (width : WidthField) : Instruction :=
  ⟨opcode, mode, width, 8#4, 9#4, 5#32⟩

/-- The latch that `exec` leaves. -/
def latchOf (i : Instr) (s : State) : Option (Option Fault) :=
  match exec i s with
  | .next t => some t.latch
  | .fault _ => none
  | .refused _ => none

/-- A healthy core of 8192 bytes: `a` 7, `b` 0, `d` 32, `e` -2^31, `f` -1, `sp` 8188, `ip` 12. -/
def core1 : State :=
  mk { Regs.zero with a := 7#32, d := 32#32, e := 0x80000000#32, f := 0xFFFFFFFF#32, sp := 8188#32, ip := 12#32 } [] []

/-- The same core with another `sp`. -/
def withSp (v : Word) : State := core1.setReg .sp v

/-- A core that fetches the unknown opcode 31, from the last six bytes of memory. -/
def core31 : State := mk { Regs.zero with ip := 8186#32 } [] [0x1F#8]

/-- A latched core that faulted on an instruction. -/
def latched1 : State := { core1 with latch := some .indexFault, last := some (record 1#5 0#1 0#2) }

theorem witness_register_field_clauses : Reg.ofField 0#4 = some .a ∧ Reg.ofField 8#4 = some .ip ∧
    Reg.ofField 9#4 = none ∧ Reg.ofField 15#4 = none := by decide
theorem witness_LoadImmediateWritesDest : latchOf (.loadImm 8#4 5#32) core1 = some none ∧
    latchOf (.loadImm 9#4 5#32) core1 = some (some .indexFault) := by decide
theorem witness_LoadMemoryZeroExtends : latchOf (.loadMem 8#4 2#2 8188#32) core1 = some none ∧
    latchOf (.loadMem 8#4 2#2 8189#32) core1 = some (some .memoryFault) ∧
    latchOf (.loadMem 8#4 0#2 8191#32) core1 = some none ∧
    latchOf (.loadMem 8#4 0#2 8192#32) core1 = some (some .memoryFault) ∧
    latchOf (.loadMem 8#4 3#2 8189#32) core1 = some (some .opcodeFault) ∧
    latchOf (.loadMem 9#4 3#2 8189#32) core1 = some (some .indexFault) := by decide
theorem witness_StoreRegisterCopies : latchOf (.storeReg 8#4 0#4) core1 = some none ∧
    latchOf (.storeReg 9#4 0#4) core1 = some (some .indexFault) ∧
    latchOf (.storeReg 0#4 9#4) core1 = some (some .indexFault) := by decide
theorem witness_StoreMemoryWritesLowBytes : core1.mem.wf ∧ latchOf (.storeMem 8#4 2#2 8188#32) core1 = some none ∧
    latchOf (.storeMem 8#4 2#2 8189#32) core1 = some (some .memoryFault) ∧
    latchOf (.storeMem 8#4 1#2 8190#32) core1 = some none ∧
    latchOf (.storeMem 8#4 3#2 8189#32) core1 = some (some .opcodeFault) ∧
    latchOf (.storeMem 9#4 3#2 8189#32) core1 = some (some .indexFault) := by decide
theorem witness_two_register_forms : latchOf (.addReg 8#4 8#4) core1 = some none ∧
    latchOf (.subReg 8#4 9#4) core1 = some (some .indexFault) ∧ latchOf (.mulu 8#4 8#4) core1 = some none ∧
    latchOf (.muls 9#4 8#4) core1 = some (some .indexFault) ∧ latchOf (.orReg 8#4 8#4) core1 = some none ∧
    latchOf (.andReg 15#4 8#4) core1 = some (some .indexFault) ∧ latchOf (.xorReg 8#4 8#4) core1 = some none := by decide
theorem witness_immediate_forms : latchOf (.addImm 8#4 5#32) core1 = some none ∧
    latchOf (.subImm 9#4 5#32) core1 = some (some .indexFault) ∧ latchOf (.orImm 8#4 5#32) core1 = some none ∧
    latchOf (.andImm 9#4 5#32) core1 = some (some .indexFault) ∧ latchOf (.xorImm 8#4 5#32) core1 = some none ∧
    latchOf (.notReg 9#4) core1 = some (some .indexFault) ∧ latchOf (.notImm 5#32) core1 = some none := by decide
theorem witness_DivideUnsigned : latchOf (.divu 0#4 8#4) core1 = some none ∧
    latchOf (.divu 0#4 1#4) core1 = some (some .divideByZero) ∧
    latchOf (.divu 9#4 1#4) core1 = some (some .indexFault) := by decide
theorem witness_DivideSigned : latchOf (.divs 4#4 5#4) core1 = some none ∧
    latchOf (.divs 0#4 1#4) core1 = some (some .divideByZero) ∧
    latchOf (.divs 0#4 9#4) core1 = some (some .indexFault) := by decide
/-- `-2^31 / -1`, the corner. -/
theorem witness_SignedDivisionLaw_corner : (core1.regs.get .e).toInt = -2147483648 ∧ (core1.regs.get .f).toInt = -1 ∧
    core1.regs.get .f ≠ 0#32 ∧ latchOf (.divs 4#4 5#4) core1 = some none := by decide
/-- `-2^31 / 7`, beside the corner. -/
theorem witness_SignedDivisionLaw : (core1.regs.get .e).toInt = -2147483648 ∧ (core1.regs.get .a).toInt ≠ -1 ∧
    core1.regs.get .a ≠ 0#32 ∧ latchOf (.divs 4#4 0#4) core1 = some none := by decide
theorem witness_DivideByZeroOnlyByDiv : Reg.ofField 0#4 = some .a ∧ Reg.ofField 1#4 = some .b ∧
    core1.regs.get .b = 0#32 ∧ latchOf (.mulu 0#4 1#4) core1 = some none ∧
    latchOf (.muls 0#4 1#4) core1 = some none := by decide
theorem witness_ShiftRegisterForms : 32 ≤ (core1.regs.get .d).toNat ∧ latchOf (.shrReg 0#4 3#4) core1 = some none ∧
    latchOf (.shlReg 0#4 9#4) core1 = some (some .indexFault) := by decide
/-- The amounts 31 and 32 on the two sides of the clause. -/
theorem witness_ShiftImmediateForms : ¬ 32 ≤ (31#32).toNat ∧ 32 ≤ (32#32).toNat ∧
    latchOf (.shrImm 4#4 31#32) core1 = some none ∧ latchOf (.shlImm 4#4 32#32) core1 = some none ∧
    latchOf (.shrImm 9#4 32#32) core1 = some (some .indexFault) := by decide
theorem witness_PushStoresAtOldSp : core1.mem.wf ∧ latchOf (.push 8#4 2#2) core1 = some none ∧
    latchOf (.push 8#4 2#2) (withSp 8189#32) = some (some .memoryFault) ∧
    latchOf (.push 8#4 0#2) (withSp 8191#32) = some none ∧
    latchOf (.push 8#4 3#2) core1 = some (some .opcodeFault) ∧
    latchOf (.push 9#4 3#2) core1 = some (some .indexFault) := by decide
/-- `sp` 4 reads at 0; `sp` 3 wraps and faults; `sp` 8192 reads the last dword; `sp` 8193 faults. -/
theorem witness_PopReadsBelowSp : latchOf (.pop 8#4) (withSp 4#32) = some none ∧
    latchOf (.pop 6#4) (withSp 8192#32) = some none ∧
    latchOf (.pop 8#4) (withSp 3#32) = some (some .memoryFault) ∧
    latchOf (.pop 8#4) (withSp 8193#32) = some (some .memoryFault) ∧
    latchOf (.pop 9#4) core1 = some (some .indexFault) := by decide
theorem witness_PushThenPopReadsEightBelow : (withSp 8#32).mem.wf ∧ core1.mem.wf ∧ Reg.ofField 0#4 = some .a ∧
    Reg.ofField 8#4 = some .ip ∧ Reg.ip ≠ .sp ∧ 8 ≤ (withSp 8#32).regs.sp.toNat ∧
    (withSp 8#32).regs.sp.toNat + 4 ≤ (withSp 8#32).mem.capacity ∧
    core1.regs.sp.toNat + 4 = core1.mem.capacity := by decide
/-- Targets 8186 and 8187, on the two sides of the check. -/
theorem witness_JumpRegisterForms : latchOf (.jzReg 6#4) (withSp 8186#32) = some none ∧
    latchOf (.jnsReg 6#4) (withSp 8187#32) = some (some .memoryFault) ∧
    latchOf (.jsReg 6#4) (withSp 8186#32) = some none ∧
    latchOf (.jmpReg 6#4) (withSp 8187#32) = some (some .memoryFault) ∧
    latchOf (.jmpReg 9#4) core1 = some (some .indexFault) := by decide
/-- `c` 0, positive and negative take each condition both ways. -/
theorem witness_JumpImmediateForms : core1.regs.c = 0#32 ∧ core1.regs.c.getLsbD 31 = false ∧
    (core1.setReg .c 0x80000000#32).regs.c.getLsbD 31 = true ∧ ¬ (core1.setReg .c 1#32).regs.c = 0#32 ∧
    latchOf (.jmpImm 8186#32) core1 = some none ∧
    latchOf (.jsImm 8187#32) core1 = some (some .memoryFault) := by decide
theorem witness_IpAdvancesUnlessWritten : core1.latch = none ∧ latchOf (.addReg 0#4 8#4) core1 = some none ∧
    (Instr.addReg 0#4 8#4).isJump = false ∧ (Instr.addReg 0#4 8#4).writtenField ≠ some 8#4 := by decide
/-- A `JMP #12` at address 12. -/
theorem witness_IdleLoopIsFixedPoint :
    let s := mk { Regs.zero with ip := 12#32 } [] [0xEE#8, 0#8, 12#8, 0#8, 0#8, 0#8]
    s.latch = none ∧ (fetch s).map Instruction.toInstr = some (.ok (.jmpImm s.regs.ip)) := by decide
theorem witness_IllegalRegisterFieldFaults : ∃ f ∈ (Instr.push 9#4 3#2).usedFields, 8 < f.toNat := by decide
theorem witness_FaultsOfLegalFields_width : (∀ f ∈ (Instr.push 8#4 3#2).usedFields, f.toNat ≤ 8) ∧
    (Instr.push 8#4 3#2).sizeField = some 3#2 := by decide
theorem witness_FaultsOfLegalFields : (∀ f ∈ (Instr.push 8#4 2#2).usedFields, f.toNat ≤ 8) ∧
    (Instr.push 8#4 2#2).wellFormed = true := by decide
theorem witness_UnknownOpcodeFaults : core31.latch = none ∧ ∃ w, fetch core31 = some w ∧ 15 ≤ w.opcode.toNat :=
  ⟨by decide, ⟨31#5, 0#1, 0#2, 0#4, 0#4, 0#32⟩, by decide, by decide⟩
/-- `ip` 8187, one above the last address a fetch can use. -/
theorem witness_FetchOutOfMemoryFaults : (core1.setReg .ip 8187#32).latch = none ∧
    (core1.setReg .ip 8187#32).mem.capacity < (core1.setReg .ip 8187#32).regs.ip.toNat + 6 := by decide
/-- A healthy core whose cycle ends with the latch set, after a fetch and after a fetch fault. -/
theorem witness_FaultIsPrecise : core31.latch = none ∧ after core31 (·.latch) = some (some .opcodeFault) ∧
    fetch core31 ≠ none ∧ (core1.setReg .ip 8187#32).latch = none ∧
    after (core1.setReg .ip 8187#32) (·.latch) = some (some .memoryFault) ∧
    fetch (core1.setReg .ip 8187#32) = none := by decide
theorem witness_LatchedCoreStaysPut : latched1.latch ≠ none := by decide
theorem witness_OnlyHostClearsLatch : latched1.latch = some .indexFault ∧
    after latched1 (·.latch) = some (some .indexFault) ∧ latchOf .nop latched1 = some (some .indexFault) ∧
    latched1.loadImage [1#8] 8191 = .next (latched1.setMem (latched1.mem.writeBytes 8191 [1#8])) ∧
    latched1.testSet 8 5#32 = .next (latched1.setReg .ip 5#32) :=
  ⟨by decide, by decide, by decide, rfl, rfl⟩
theorem witness_RetryAfterResetRefaults : core31.latch = none ∧ ∃ t, step core31 = .next t ∧ t.latch ≠ none :=
  ⟨by decide, { core31 with latch := some .opcodeFault, last := some ⟨31#5, 0#1, 0#2, 0#4, 0#4, 0#32⟩ }, rfl,
    by decide⟩
theorem witness_StepKeepsInv : core1.Inv ∧ core31.Inv ∧ latched1.Inv ∧ after core1 (fun t => decide t.Inv) = some true ∧
    after core31 (fun t => decide t.Inv) = some true := by decide
/-- The two ends of the capacity's range. -/
theorem witness_PowerOnState : Config.minCapacity = 6 ∧ Config.maxCapacity = 2 ^ 32 ∧ (6 : Nat) ≤ 6 ∧
    (6 : Nat) ≤ 2 ^ 32 ∧ (5 : Nat) < 6 ∧ State.reset.mem.capacity = 8192 := by decide
theorem witness_StepRunsDecodedInstruction :
    let s := mk { Regs.zero with ip := 8186#32 } [] [0x23#8, 8#8, 12#8, 0#8, 0#8, 0#8]
    s.latch = none ∧ s.regs.ip.toNat + 6 ≤ s.mem.capacity ∧
      [0, 1, 2, 3, 4, 5].map (fun k => s.mem.readByte (s.regs.ip.toNat + k)) = [0x23#8, 8#8, 12#8, 0#8, 0#8, 0#8] ∧
      decode [0x23#8, 8#8, 12#8, 0#8, 0#8, 0#8] = .ok (.addImm 8#4 12#32, []) ∧
      (Instr.addImm 8#4 12#32).wellFormed = true := by decide
/-- PUSH of `e` names neither `a` nor `bp`. -/
theorem witness_UnnamedRegistersAreUntouched : ∀ f ∈ (Instr.push 4#4 2#2).usedFields,
    Reg.ofField f ≠ some .a ∧ Reg.ofField f ≠ some .b ∧ Reg.ofField f ≠ some .d ∧ Reg.ofField f ≠ some .bp := by decide
theorem witness_OnlyStoresChangeMemory : (Instr.pop 0#4).storesMemory = false ∧
    latchOf (.pop 0#4) core1 = some none := by decide
theorem witness_CapacityNeverChanges : after core1 (·.mem.capacity) = some 8192 := by decide
/-- Two ways to write the same bytes. -/
theorem witness_EqualBytesEqualMemory :
    let m := (core1.mem.writeByte 5 1#8).writeByte 3 2#8
    let m' := (core1.mem.writeByte 3 2#8).writeByte 5 1#8
    m.wf ∧ m'.wf ∧ m.capacity = m'.capacity ∧ m = m' := by decide
/-- The last byte of a dword STORE at the last address it can use. -/
theorem witness_MixedWidthReads : core1.Inv ∧ Reg.ofField 5#4 = some .f ∧ Reg.ofField 8#4 = some .ip ∧
    2#2 ≠ 3#2 ∧ 0#2 ≠ 3#2 ∧ 3 + 2 ^ (0#2).toNat ≤ 2 ^ (2#2).toNat ∧
    (8188#32).toNat + 2 ^ (2#2).toNat ≤ core1.mem.capacity := by decide
/-- A dword STORE of `a` to the value field of the next instruction, at the last address that has a next one. -/
theorem witness_StoredCodeIsFetched :
    let s := mk { Regs.zero with a := 7#32, ip := 8180#32 } [] [0xA2#8, 0#8, 0xFC#8, 0x1F#8, 0#8, 0#8, 0x01#8, 1#8]
    s.Inv ∧ s.latch = none ∧ (fetch s).map Instruction.toInstr = some (.ok (.storeMem 0#4 2#2 (s.regs.ip + 8#32))) ∧
      Reg.ofField 0#4 = some .a ∧ s.regs.ip.toNat + 12 ≤ s.mem.capacity := by decide
theorem witness_DecoderTakesSixBytes :
    decode [0x01#8, 0#8, 5#8, 0#8, 0#8, 0#8, 9#8] = .ok (.loadImm 0#4 5#32, [9#8]) := by decide
/-- Opcodes 14 and 15, on the two sides of the clause. -/
theorem witness_UnknownOpcodesAreRefused : ¬ 15 ≤ ((0xEE#8 : Byte).extractLsb' 0 5).toNat ∧
    15 ≤ ((0x0F#8 : Byte).extractLsb' 0 5).toNat := by decide
theorem witness_RegisterAndFaultNumbers : 8 < (9#4 : RegField).toNat ∧ 8 < (15#4 : RegField).toNat := by decide
theorem witness_HostResetClearsLatchOnly : core1.latch = none ∧ latched1.latch ≠ none := by decide
/-- One byte at 8191 fits, and one at 8192 does not. -/
theorem witness_LoadImageAllOrNothing : core1.mem.wf ∧ core1.mem.capacity < 8192 + [1#8].length ∧
    8191 + [1#8].length ≤ core1.mem.capacity ∧ core1.loadImage [1#8] 8192 = .fault .memoryFault :=
  ⟨by decide, by decide, by decide, rfl⟩
theorem witness_LoadImageRefusedAfterCycle :
    (Session.mk core1 true).loadImage [1#8] 0 = .refused .loadAfterFirstCycle ∧ (Session.mk core1 false).cycled = false ∧
      ∃ t o, (Session.mk core1 false).cycle = .next (t, o) :=
  ⟨rfl, rfl, _, _, rfl⟩
/-- A load before the first cycle, and a register write and a `reset()` after it. -/
theorem witness_LoadImageRefusedAfterCycle_mark :
    (∃ h', (Session.mk core1 false).loadImage [1#8] 8191 = .next h' ∧ h'.cycled = false) ∧
      (∃ h', (Session.mk latched1 true).testSet 8 5#32 = .next h' ∧ h'.cycled = true) ∧
      (Session.mk latched1 true).resetLatch.cycled = true ∧ (Session.mk latched1 true).resetLatch.core.latch = none :=
  ⟨⟨_, rfl, rfl⟩, ⟨_, rfl, rfl⟩, rfl, rfl⟩
theorem witness_TestAccessByIndex : Reg.ofIndex 8 = some .ip ∧ Reg.ofIndex 9 = none := by decide
theorem witness_CycleOutcomeIsLatch : after core1 State.outcome = some .continued ∧
    after core31 State.outcome = some (.faulted .opcodeFault) := by decide
theorem witness_PlacedWordRunsNext : core1.Inv ∧ decodeTableWord 48 0x000000050001 = some (.loadImm 0#4 5#32) ∧
    core1.regs.ip.toNat + 6 ≤ core1.mem.capacity := by decide

end Sys2Proof.Tests
end

section
/-! The decoder over byte lists: what its six bytes give, and that it answers on no shorter list. -/

namespace Sys2Proof

/-- On six bytes and a rest, the decoder answers what the record of the six bytes names, and the rest untouched. -/
@[simp] theorem decode_six_cons_eq_ok_iff (b0 b1 b2 b3 b4 b5 : Byte) (tail rest : List Byte) (i : Instr) :
    decode (b0 :: b1 :: b2 :: b3 :: b4 :: b5 :: tail) = .ok (i, rest) ↔
      (Instruction.decode b0 b1 b2 b3 b4 b5).toInstr = .ok i ∧ tail = rest := by
  rw [decode]
  cases (Instruction.decode b0 b1 b2 b3 b4 b5).toInstr with
  | ok j => simp
  | error e => simp

/-- A list of fewer than six bytes gives no instruction. -/
theorem decode_eq_truncated {bytes : List Byte} (h : bytes.length < 6) : decode bytes = .error .truncated := by
  unfold decode
  split
  · simp only [List.length_cons] at h
    omega
  · rfl

/-- Whatever decodes begins with six bytes, whose record names the instruction, and goes on with the rest (R72). -/
theorem exists_six_of_decode_eq_ok {bytes rest : List Byte} {i : Instr} (h : decode bytes = .ok (i, rest)) :
    ∃ b0 b1 b2 b3 b4 b5 : Byte, bytes = [b0, b1, b2, b3, b4, b5] ++ rest ∧
      (Instruction.decode b0 b1 b2 b3 b4 b5).toInstr = .ok i := by
  match bytes with
  | b0 :: b1 :: b2 :: b3 :: b4 :: b5 :: tail =>
    obtain ⟨hi, rfl⟩ := (decode_six_cons_eq_ok_iff ..).mp h
    exact ⟨b0, b1, b2, b3, b4, b5, rfl, hi⟩
  | [] | [_] | [_, _] | [_, _, _] | [_, _, _, _] | [_, _, _, _, _] =>
    rw [decode_eq_truncated (by simp)] at h
    cases h

/-- Settles O51: the six bytes a successful decode begins with decode to the same instruction when nothing follows. -/
theorem decoderTakesSixBytes : Obligations.DecoderTakesSixBytes := by
  intro bytes rest i h
  obtain ⟨b0, b1, b2, b3, b4, b5, hbytes, hi⟩ := exists_six_of_decode_eq_ok h
  exact ⟨[b0, b1, b2, b3, b4, b5], rfl, hbytes, (decode_six_cons_eq_ok_iff ..).mpr ⟨hi, rfl⟩⟩

end Sys2Proof
end

section
/-! The decoder over the six bytes of a record: they give the record back, so that an encoding line (`DecodesTo`) is a
statement about the opcode map alone. -/

namespace Sys2Proof

/-- The header byte `opcode | mode<<5 | width<<6`, the register byte `dest | src<<4` and the little-endian value decode
to the fields they were packed from (R62, R73). -/
theorem Instruction.decode_packed (opcode : BitVec 5) (mode : BitVec 1) (width : WidthField) (dest src : RegField)
    (value : Word) :
    Instruction.decode (width ++ mode ++ opcode) (src ++ dest) (value.extractLsb' 0 8) (value.extractLsb' 8 8)
      (value.extractLsb' 16 8) (value.extractLsb' 24 8) = ⟨opcode, mode, width, dest, src, value⟩ := by
  rw [Instruction.decode, Instruction.mk.injEq]
  have hmode : (width ++ mode ++ opcode).extractLsb' 5 1 = mode :=
    (BitVec.extractLsb'_append_eq_of_le (le_refl 5)).trans BitVec.extractLsb'_append_eq_right
  have hwidth : (width ++ mode ++ opcode).extractLsb' 6 2 = width :=
    (BitVec.extractLsb'_append_eq_of_le (by decide : 5 ≤ 6)).trans BitVec.extractLsb'_append_eq_left
  have hvalue : value.extractLsb' 24 8 ++ value.extractLsb' 16 8 ++ value.extractLsb' 8 8 ++ value.extractLsb' 0 8 =
      value := by
    rw [BitVec.extractLsb'_append_extractLsb'_eq_extractLsb' (rfl : 24 = 16 + 8),
      BitVec.extractLsb'_append_extractLsb'_eq_extractLsb' (rfl : 16 = 8 + 8),
      BitVec.extractLsb'_append_extractLsb'_eq_extractLsb' (rfl : 8 = 0 + 8)]
    exact BitVec.extractLsb'_eq_self
  exact ⟨BitVec.extractLsb'_append_eq_right, hmode, hwidth, BitVec.extractLsb'_append_eq_right,
    BitVec.extractLsb'_append_eq_left, hvalue⟩

end Sys2Proof

namespace Sys2Proof.Machine

/-- An encoding line holds exactly when the opcode map of R74 sends every record with its opcode and mode to the
instruction. -/
theorem decodesTo_iff (opcode : BitVec 5) (mode : BitVec 1) (i : WidthField → RegField → RegField → Word → Instr) :
    DecodesTo opcode mode i ↔ ∀ (width : WidthField) (dest src : RegField) (value : Word),
      (⟨opcode, mode, width, dest, src, value⟩ : Instruction).toInstr = .ok (i width dest src value) := by
  simp only [DecodesTo, decode_six_cons_eq_ok_iff, Instruction.decode_packed, and_true]

end Sys2Proof.Machine
end

section
/-! Instructions that collect register writes only: what becomes of `ip`, and the data movement statements. -/

namespace Sys2Proof.Machine

/-- An instruction that collects register writes, none of them to `ip`, completes with them and goes on to the next
word (R86). -/
theorem completes_to_next_word {i : Instr} {s : State} {ws : List (Reg × Word)}
    (h : execute i s = .ok (regWrites ws)) (hip : lastWrite ws .ip = none) :
    ∃ t, WritesExactly i s t ws ∧ SameMemory s t ∧ t.regs.ip = s.regs.ip + 6#32 := by
  have hexec : exec i s = finish s (.ok (regWrites ws)) := by rw [exec_eq_finish, h]
  obtain ⟨t, hw, hm⟩ := completesInRegs_of hexec
  have ht : t = s.retire (regWrites ws) := by
    obtain ⟨hnext, -⟩ := hw
    rw [hexec, finish_ok, Host.Outcome.next.injEq] at hnext
    exact hnext.symm
  refine ⟨t, hw, hm, ?_⟩
  rw [ht]
  exact State.retire_ip_of_not_written s (by rw [any_isIp_regWrites, hip]; rfl)

/-- STORE register with two fields that name registers collects one write, of `src`'s value to `dest` (R103). -/
theorem execute_storeReg_some {rd rs : RegField} {dst src : Reg} (hd : Reg.ofField rd = some dst)
    (hs : Reg.ofField rs = some src) (s : State) :
    execute (.storeReg rd rs) s = .ok (regWrites [(dst, s.regs.get src)]) := by
  simp [execute, hd, hs]

/-- STORE register with a field that names no register is an IndexFault (R103). -/
theorem execute_storeReg_none {rd rs : RegField} (h : Reg.ofField rd = none ∨ Reg.ofField rs = none) (s : State) :
    execute (.storeReg rd rs) s = .error .indexFault := by
  rcases withReg_cases rd fun dst => withReg rs fun r => .ok [.reg dst (s.regs.get r)] with
    ⟨-, hfault⟩ | ⟨dst, hd, hgo⟩
  · exact hfault
  · have hs : Reg.ofField rs = none := h.resolve_left (by simp [hd])
    exact hgo.trans (withReg_none hs _)

/-- Settles O1: the opcode map ignores the mode of opcode 0, and NOP collects the empty list of writes. -/
theorem nopChangesNothing : Obligations.NopChangesNothing := by
  refine ⟨fun mode => ?_, fun s => completes_to_next_word (ws := []) rfl rfl⟩
  rw [decodesTo_iff]
  intro width dest src value
  rfl

/-- Settles O4, by the registers the two fields name: a write of `src`'s value when both name one, otherwise
IndexFault. -/
theorem storeRegisterCopies : Obligations.StoreRegisterCopies := by
  constructor
  · rw [decodesTo_iff]
    intro width dest src value
    rfl
  · intro rd rs s
    cases hd : Reg.ofField rd with
    | none => exact takesFault_of (by rw [exec_eq_finish, execute_storeReg_none (.inl hd)])
    | some dst =>
      cases hs : Reg.ofField rs with
      | none => exact takesFault_of (by rw [exec_eq_finish, execute_storeReg_none (.inr hs)])
      | some src => exact completesInRegs_of (by rw [exec_eq_finish, execute_storeReg_some hd hs])

end Sys2Proof.Machine
end

section
/-! The arithmetic statements (spec/42_arithmetic.md): ADD and SUB in both modes, MULU and DIVU. An instruction with
one or two used register fields answers IndexFault unless they name registers, and then does what its meaning says of
those registers. -/

namespace Sys2Proof.Machine

variable {i : Instr} {s : State} {rd rs : RegField} {dst src : Reg} {ws : List (Reg × Word)} {fault : Fault}

/-- An instruction whose collected effect is a fault takes it. -/
theorem takesFault_of_execute (h : execute i s = .error fault) : TakesFault i s fault :=
  takesFault_of (by rw [exec_eq_finish, h])

/-- An instruction whose collected effect is a list of register writes completes with them. -/
theorem completesInRegs_of_execute (h : execute i s = .ok (regWrites ws)) : CompletesInRegs i s ws :=
  completesInRegs_of (by rw [exec_eq_finish, h])

/-- Two used register fields that name registers go on with both. -/
theorem withReg_withReg_some (hd : Reg.ofField rd = some dst) (hs : Reg.ofField rs = some src)
    (k : Reg → Reg → Effect) : (withReg rd fun x => withReg rs (k x)) = k dst src :=
  (withReg_some hd _).trans (withReg_some hs _)

/-- Of two used register fields, one that names no register is enough for IndexFault (R66). -/
theorem withReg_withReg_none (h : Reg.ofField rd = none ∨ Reg.ofField rs = none) (k : Reg → Reg → Effect) :
    (withReg rd fun x => withReg rs (k x)) = .error .indexFault := by
  rcases withReg_cases rd fun x => withReg rs (k x) with ⟨-, hfault⟩ | ⟨x, hd, hgo⟩
  · exact hfault
  · have hs : Reg.ofField rs = none := h.resolve_left (by simp [hd])
    exact hgo.trans (withReg_none hs _)

/-- MULU with two fields that name registers collects one write, of the product of their values to `e` (R114). -/
theorem execute_mulu_some (hd : Reg.ofField rd = some dst) (hs : Reg.ofField rs = some src) (s : State) :
    execute (.mulu rd rs) s = .ok (regWrites [(.e, s.regs.get dst * s.regs.get src)]) := by
  rw [← mulUnsigned_eq]
  exact withReg_withReg_some hd hs _

/-- DIVU with a zero divisor is a DivideByZero (R116, R174). -/
theorem execute_divu_zero (hd : Reg.ofField rd = some dst) (hs : Reg.ofField rs = some src)
    (h0 : s.regs.get src = 0#32) : execute (.divu rd rs) s = .error .divideByZero :=
  (withReg_withReg_some hd hs _).trans (if_pos h0)

/-- DIVU with a divisor other than zero collects two writes, the remainder to `e` and the quotient to `f`, both of the
old operands (R116, R121). -/
theorem execute_divu_of_ne_zero (hd : Reg.ofField rd = some dst) (hs : Reg.ofField rs = some src)
    (h0 : s.regs.get src ≠ 0#32) :
    execute (.divu rd rs) s =
      .ok (regWrites [(.e, s.regs.get dst % s.regs.get src), (.f, s.regs.get dst / s.regs.get src)]) := by
  rw [← remUnsigned_eq, ← quotUnsigned_eq]
  exact (withReg_withReg_some hd hs _).trans (if_neg h0)

end Sys2Proof.Machine

namespace Sys2Proof.Machine

/-- Settles O6, by the registers the two fields name: one write of the sum or difference to `dest` when both name one,
otherwise IndexFault. -/
theorem addSubRegisterForms : Obligations.AddSubRegisterForms := by
  refine ⟨(decodesTo_iff ..).mpr fun _ _ _ _ => rfl, (decodesTo_iff ..).mpr fun _ _ _ _ => rfl, fun rd rs s => ?_⟩
  cases hd : Reg.ofField rd with
  | none =>
    exact ⟨takesFault_of_execute (withReg_withReg_none (.inl hd) _),
      takesFault_of_execute (withReg_withReg_none (.inl hd) _)⟩
  | some dst =>
    cases hs : Reg.ofField rs with
    | none =>
      exact ⟨takesFault_of_execute (withReg_withReg_none (.inr hs) _),
        takesFault_of_execute (withReg_withReg_none (.inr hs) _)⟩
    | some src =>
      exact ⟨completesInRegs_of_execute (withReg_withReg_some hd hs _),
        completesInRegs_of_execute (withReg_withReg_some hd hs _)⟩

/-- Settles O7, by the register the field names: one write of the sum or difference with the value field to `dest`,
`ip` among the registers it may name, otherwise IndexFault. -/
theorem addSubImmediateForms : Obligations.AddSubImmediateForms := by
  refine ⟨(decodesTo_iff ..).mpr fun _ _ _ _ => rfl, (decodesTo_iff ..).mpr fun _ _ _ _ => rfl, fun rd v s => ?_⟩
  cases hd : Reg.ofField rd with
  | none =>
    exact ⟨takesFault_of_execute (withReg_none hd _), takesFault_of_execute (withReg_none hd _)⟩
  | some dst =>
    exact ⟨completesInRegs_of_execute (withReg_some hd _), completesInRegs_of_execute (withReg_some hd _)⟩

/-- Settles O8: the unsigned product narrowed to 32 bits is the product of words, and the one write is to `e`. -/
theorem multiplyUnsigned : Obligations.MultiplyUnsigned := by
  refine ⟨(decodesTo_iff ..).mpr fun _ _ _ _ => rfl, fun rd rs s => ?_⟩
  cases hd : Reg.ofField rd with
  | none => exact takesFault_of_execute (withReg_withReg_none (.inl hd) _)
  | some dst =>
    cases hs : Reg.ofField rs with
    | none => exact takesFault_of_execute (withReg_withReg_none (.inr hs) _)
    | some src => exact completesInRegs_of_execute (execute_mulu_some hd hs s)

/-- Settles O11: the register fields are checked first, then the divisor; the two writes are computed before either is
committed. -/
theorem divideUnsigned : Obligations.DivideUnsigned := by
  refine ⟨(decodesTo_iff ..).mpr fun _ _ _ _ => rfl, fun rd rs s => ?_⟩
  cases hd : Reg.ofField rd with
  | none => exact takesFault_of_execute (withReg_withReg_none (.inl hd) _)
  | some dst =>
    cases hs : Reg.ofField rs with
    | none => exact takesFault_of_execute (withReg_withReg_none (.inr hs) _)
    | some src =>
      by_cases h0 : s.regs.get src = 0#32
      · simpa only [if_pos h0] using takesFault_of_execute (execute_divu_zero hd hs h0)
      · simpa only [if_neg h0] using completesInRegs_of_execute (execute_divu_of_ne_zero hd hs h0)

end Sys2Proof.Machine
end

section
/-! The bitwise statements (spec/43_logic.md R130 to R137): OR, AND, XOR and NOT in both modes. OR, AND and XOR are the
model's two shapes with a fixed destination, so what those shapes do is said once, for every operation and destination. -/

namespace Sys2Proof.Machine

section FixedDestination
variable {i : Instr} {s : State} {rd rs : RegField} {dst src x : Reg} {v : Word} {op : Word → Word → Word}

/-- With two fields that name registers, the register form writes its fixed register and nothing else. -/
theorem completesInRegs_of_intoFixedReg (hi : exec i s = intoFixedReg x op rd rs s) (hd : Reg.ofField rd = some dst)
    (hs : Reg.ofField rs = some src) : CompletesInRegs i s [(x, op (s.regs.get dst) (s.regs.get src))] :=
  completesInRegs_of (hi.trans (congrArg (finish s) (withReg_withReg_some hd hs _)))

/-- With a field that names no register, the register form raises IndexFault. -/
theorem takesFault_of_intoFixedReg (hi : exec i s = intoFixedReg x op rd rs s)
    (h : Reg.ofField rd = none ∨ Reg.ofField rs = none) : TakesFault i s .indexFault :=
  takesFault_of (hi.trans (congrArg (finish s) (withReg_withReg_none h _)))

/-- With a field that names a register, the immediate form writes its fixed register and nothing else. -/
theorem completesInRegs_of_intoFixedImm (hi : exec i s = intoFixedImm x op rd v s) (hd : Reg.ofField rd = some dst) :
    CompletesInRegs i s [(x, op (s.regs.get dst) v)] :=
  completesInRegs_of (hi.trans (congrArg (finish s) (withReg_some hd _)))

/-- With a field that names no register, the immediate form raises IndexFault. -/
theorem takesFault_of_intoFixedImm (hi : exec i s = intoFixedImm x op rd v s) (hd : Reg.ofField rd = none) :
    TakesFault i s .indexFault :=
  takesFault_of (hi.trans (congrArg (finish s) (withReg_none hd _)))

end FixedDestination

/-- Settles O15, by the registers the two fields name: each of the three is the register form into `c`. -/
theorem logicRegisterForms : Obligations.LogicRegisterForms := by
  refine ⟨(decodesTo_iff ..).mpr fun _ _ _ _ => rfl, (decodesTo_iff ..).mpr fun _ _ _ _ => rfl,
    (decodesTo_iff ..).mpr fun _ _ _ _ => rfl, fun rd rs s => ?_⟩
  cases hd : Reg.ofField rd with
  | none =>
    exact ⟨takesFault_of_intoFixedReg rfl (.inl hd), takesFault_of_intoFixedReg rfl (.inl hd),
      takesFault_of_intoFixedReg rfl (.inl hd)⟩
  | some dst =>
    cases hs : Reg.ofField rs with
    | none =>
      exact ⟨takesFault_of_intoFixedReg rfl (.inr hs), takesFault_of_intoFixedReg rfl (.inr hs),
        takesFault_of_intoFixedReg rfl (.inr hs)⟩
    | some src =>
      exact ⟨completesInRegs_of_intoFixedReg rfl hd hs, completesInRegs_of_intoFixedReg rfl hd hs,
        completesInRegs_of_intoFixedReg rfl hd hs⟩

/-- Settles O16, by the register the field names: each of the three is the immediate form into `c`. -/
theorem logicImmediateForms : Obligations.LogicImmediateForms := by
  refine ⟨(decodesTo_iff ..).mpr fun _ _ _ _ => rfl, (decodesTo_iff ..).mpr fun _ _ _ _ => rfl,
    (decodesTo_iff ..).mpr fun _ _ _ _ => rfl, fun rd v s => ?_⟩
  cases hd : Reg.ofField rd with
  | none =>
    exact ⟨takesFault_of_intoFixedImm rfl hd, takesFault_of_intoFixedImm rfl hd, takesFault_of_intoFixedImm rfl hd⟩
  | some dst =>
    exact ⟨completesInRegs_of_intoFixedImm rfl hd, completesInRegs_of_intoFixedImm rfl hd,
      completesInRegs_of_intoFixedImm rfl hd⟩

/-- Settles O17: NOT register turns on the one field it uses, and NOT immediate collects its write to `c` with no field
to check. -/
theorem notForms : Obligations.NotForms := by
  refine ⟨(decodesTo_iff ..).mpr fun _ _ _ _ => rfl, (decodesTo_iff ..).mpr fun _ _ _ _ => rfl, fun rd s => ?_,
    fun v s => completesInRegs_of_execute rfl⟩
  cases hd : Reg.ofField rd with
  | none => exact takesFault_of_execute (withReg_none hd _)
  | some dst => exact completesInRegs_of_execute (withReg_some hd _)

end Sys2Proof.Machine
end

section
/-! DivideByZero (spec/60_exceptions.md R174): DIV raises it in both modes, and a register form that has no check of its
own beyond the two fields raises nothing but IndexFault. -/

namespace Sys2Proof.Machine

/-- DIVS with a zero divisor is a DivideByZero (R117, R174). -/
theorem execute_divs_zero {s : State} {rd rs : RegField} {dst src : Reg} (hd : Reg.ofField rd = some dst)
    (hs : Reg.ofField rs = some src) (h0 : s.regs.get src = 0#32) : execute (.divs rd rs) s = .error .divideByZero :=
  (withReg_withReg_some hd hs _).trans (if_pos h0)

/-- A used register field adds no fault but IndexFault to those of what follows it (R175). -/
theorem withReg_ne_error {k : Fault} (hk : k ≠ .indexFault) (f : RegField) {next : Reg → Effect}
    (hnext : ∀ r, next r ≠ .error k) : withReg f next ≠ .error k := by
  rcases withReg_cases f next with ⟨-, hfault⟩ | ⟨r, -, hgo⟩
  · rw [hfault, ne_eq, Except.error.injEq]
    exact hk.symm
  · rw [hgo]
    exact hnext r

/-- Two used register fields followed by writes alone raise no fault but IndexFault. -/
theorem withReg_withReg_ok_ne_error {k : Fault} (hk : k ≠ .indexFault) (rd rs : RegField)
    (writes : Reg → Reg → List Write) :
    (withReg rd fun x => withReg rs fun y => .ok (writes x y)) ≠ .error k :=
  withReg_ne_error hk rd fun _ => withReg_ne_error hk rs fun _ => nofun

/-- An instruction that does not raise a fault does not put it into the latch. -/
theorem exec_latches_only_raised {i : Instr} {s : State} {k : Fault} (h : execute i s ≠ .error k) :
    ∃ t, exec i s = .next t ∧ (t.latch = some k → s.latch = some k) := by
  rw [exec_eq_finish]
  rcases finish_cases s (execute i s) with ⟨k', hraised, hnext⟩ | ⟨ws, -, hnext⟩
  · refine ⟨_, hnext, fun hlatch => absurd hraised ?_⟩
    obtain rfl : k' = k := by simpa using hlatch
    exact h
  · exact ⟨_, hnext, fun hlatch => by simpa using hlatch⟩

/-- Settles O14: each DIV reaches its check of the divisor once both fields name registers, and each MUL collects one
write and has no fault but IndexFault to raise. -/
theorem divideByZeroOnlyByDiv : Obligations.DivideByZeroOnlyByDiv := by
  refine ⟨fun rd rs dst src s hd hs h0 => ⟨?_, ?_⟩, fun rd rs s => ⟨?_, ?_⟩⟩
  · exact takesFault_of_execute (execute_divu_zero hd hs h0)
  · exact takesFault_of_execute (execute_divs_zero hd hs h0)
  · exact exec_latches_only_raised (withReg_withReg_ok_ne_error (by decide) rd rs _)
  · exact exec_latches_only_raised (withReg_withReg_ok_ne_error (by decide) rd rs _)

end Sys2Proof.Machine
end

section
/-! What leaves the fault latch (spec/70_reset_and_hazards.md R194): the state each operation of the core gives, and that
none but the host's `reset()` gives one with the latch clear. -/

namespace Sys2Proof.Machine

/-- `load_image` gives a next state exactly when the image fits, and then only memory is replaced (R196). -/
theorem State.loadImage_eq_next_iff {s t : State} {bytes : List Byte} {offset : Nat} :
    s.loadImage bytes offset = .next t ↔
      offset + bytes.length ≤ s.mem.capacity ∧ s.setMem (s.mem.writeBytes offset bytes) = t := by
  unfold State.loadImage
  split
  · next hfits => simp [hfits]
  · next hfits => simp [hfits]

/-- The register test access gives a next state exactly when the index names a register, and then only that register is
written (R197). -/
theorem State.testSet_eq_next_iff {s t : State} {index : Nat} {v : Word} :
    s.testSet index v = .next t ↔ ∃ r, Reg.ofIndex index = some r ∧ s.setReg r v = t := by
  unfold State.testSet
  cases Reg.ofIndex index with
  | none => simp
  | some r => simp

/-- `load_image` leaves the latch as it was. -/
theorem State.loadImage_latch {s t : State} {bytes : List Byte} {offset : Nat}
    (h : s.loadImage bytes offset = .next t) : t.latch = s.latch := by
  obtain ⟨-, rfl⟩ := State.loadImage_eq_next_iff.mp h
  exact State.setMem_latch ..

/-- The register test access leaves the latch as it was. -/
theorem State.testSet_latch {s t : State} {index : Nat} {v : Word} (h : s.testSet index v = .next t) :
    t.latch = s.latch := by
  obtain ⟨r, -, rfl⟩ := State.testSet_eq_next_iff.mp h
  exact State.setReg_latch ..

/-- A cycle of a latched core leaves the latch as it was (R178). -/
theorem step_latch_of_latched {s t : State} {k : Fault} (hl : s.latch = some k) (h : step s = .next t) :
    t.latch = some k := by
  rw [step_latched hl, Host.Outcome.next.injEq] at h
  rwa [← h]

/-- An instruction keeps the latch or takes a fault into it, so it never clears it. -/
theorem exec_latch_ne_none {i : Instr} {s t : State} (hl : s.latch ≠ none) (h : exec i s = .next t) :
    t.latch ≠ none := by
  obtain ⟨-, -, -, hkept | ⟨k, rfl⟩⟩ := exec_frame h
  · rwa [hkept]
  · simp

/-- Settles O33: `reset()` clears the latch by definition, and for each other operation by what it does to the latch. -/
theorem onlyHostClearsLatch : Obligations.OnlyHostClearsLatch := by
  intro s k hl
  refine ⟨State.clearLatch_latch s, fun t => step_latch_of_latched hl, fun i t => exec_latch_ne_none (by simp [hl]),
    fun bytes offset t hload => ?_, fun index v t hset => ?_⟩
  · exact (State.loadImage_latch hload).trans hl
  · exact (State.testSet_latch hset).trans hl

end Sys2Proof.Machine
end

section
/-! Decoding and encoding (spec/30_encoding.md): the two round trips of R73, the bit positions of R62, and which opcodes
the map of R74 refuses. -/

namespace Sys2Proof

open Sys2Proof.Machine

/-- The opcode map gives back every instruction from its record (R74). -/
theorem toInstr_toInstruction (i : Instr) : i.toInstruction.toInstr = .ok i := by
  cases i <;> rfl

/-- The six bytes of a record, with any bytes after them, decode to what the opcode map makes of the record (R73). -/
theorem decode_encode_append_eq_ok_iff (w : Instruction) (rest : List Byte) (i : Instr) :
    decode (w.encode ++ rest) = .ok (i, rest) ↔ w.toInstr = .ok i := by
  simp [Instruction.encode, Instruction.decode_packed]

/-- Settles O47: the six bytes decode to the record they were packed from, and the opcode map gives that record's
instruction back. -/
theorem decodeEncodeAgree : Obligations.DecodeEncodeAgree := fun i rest =>
  (decode_encode_append_eq_ok_iff i.toInstruction rest i).mpr (toInstr_toInstruction i)

/-- A word joined from four bytes, cut into bytes again. -/
theorem extract_bytes_append (b2 b3 b4 b5 : Byte) :
    (b5 ++ b4 ++ b3 ++ b2).extractLsb' 0 8 = b2 ∧ (b5 ++ b4 ++ b3 ++ b2).extractLsb' 8 8 = b3 ∧
      (b5 ++ b4 ++ b3 ++ b2).extractLsb' 16 8 = b4 ∧ (b5 ++ b4 ++ b3 ++ b2).extractLsb' 24 8 = b5 := by
  refine ⟨BitVec.extractLsb'_append_eq_right, ?_, ?_, ?_⟩
  · exact (BitVec.extractLsb'_append_eq_of_le (le_refl 8)).trans BitVec.extractLsb'_append_eq_right
  · exact (BitVec.extractLsb'_append_eq_of_le (by decide : 8 ≤ 16)).trans
      ((BitVec.extractLsb'_append_eq_of_le (le_refl 8)).trans BitVec.extractLsb'_append_eq_right)
  · exact (BitVec.extractLsb'_append_eq_of_le (by decide : 8 ≤ 24)).trans
      ((BitVec.extractLsb'_append_eq_of_le (by decide : 8 ≤ 16)).trans
        ((BitVec.extractLsb'_append_eq_of_le (le_refl 8)).trans BitVec.extractLsb'_eq_self))

/-- The record of six bytes is packed into the same six bytes (R73). -/
theorem Instruction.encode_decode (b0 b1 b2 b3 b4 b5 : Byte) :
    (Instruction.decode b0 b1 b2 b3 b4 b5).encode = [b0, b1, b2, b3, b4, b5] := by
  have hheader : b0.extractLsb' 6 2 ++ b0.extractLsb' 5 1 ++ b0.extractLsb' 0 5 = b0 := by
    rw [BitVec.extractLsb'_append_extractLsb'_eq_extractLsb' (rfl : 6 = 5 + 1),
      BitVec.extractLsb'_append_extractLsb'_eq_extractLsb' (rfl : 5 = 0 + 5)]
    exact BitVec.extractLsb'_eq_self
  have hregs : b1.extractLsb' 4 4 ++ b1.extractLsb' 0 4 = b1 := by
    rw [BitVec.extractLsb'_append_extractLsb'_eq_extractLsb' (rfl : 4 = 0 + 4)]
    exact BitVec.extractLsb'_eq_self
  obtain ⟨h2, h3, h4, h5⟩ := extract_bytes_append b2 b3 b4 b5
  simp only [Instruction.encode, Instruction.decode, hheader, hregs, h2, h3, h4, h5]

/-- Settles O48, by the two packings, each the inverse of the other. -/
theorem recordRoundTrip : Obligations.RecordRoundTrip :=
  ⟨fun _ => ⟨_, _, _, _, _, _, rfl, Instruction.decode_packed ..⟩, Instruction.encode_decode⟩

/-- Settles O49: each field lies in the byte, or the four bytes, it is read from, so cutting it out of the word passes
over the bytes below and drops the bytes above. -/
theorem decodeFieldPositions : Obligations.DecodeFieldPositions := by
  intro b0 b1 b2 b3 b4 b5
  refine ⟨?opcode, ?mode, ?width, ?dest, ?src, ?value⟩
  case opcode => exact (BitVec.extractLsb'_append_eq_of_add_le (by decide)).symm
  case mode => exact (BitVec.extractLsb'_append_eq_of_add_le (by decide)).symm
  case width => exact (BitVec.extractLsb'_append_eq_of_add_le (by decide)).symm
  case dest =>
    exact ((BitVec.extractLsb'_append_eq_of_le (by decide : 8 ≤ 8)).trans
      (BitVec.extractLsb'_append_eq_of_add_le (by decide : 8 - 8 + 4 ≤ 8))).symm
  case src =>
    exact ((BitVec.extractLsb'_append_eq_of_le (by decide : 8 ≤ 12)).trans
      (BitVec.extractLsb'_append_eq_of_add_le (by decide : 12 - 8 + 4 ≤ 8))).symm
  case value =>
    exact ((BitVec.extractLsb'_append_eq_of_le (by decide)).trans
      ((BitVec.extractLsb'_append_eq_of_le (by decide)).trans BitVec.extractLsb'_eq_self)).symm

/-- An opcode of 15 or more names no instruction (R67). -/
theorem Instruction.toInstr_eq_error {w : Instruction} (h : 15 ≤ w.opcode.toNat) :
    w.toInstr = .error (.unknownOpcode w.opcode) := by
  unfold Instruction.toInstr
  split
  case h_30 => rfl
  all_goals omega

/-- An opcode of 0 to 14 names an instruction in every mode (R63, R74). -/
theorem Instruction.exists_toInstr_eq_ok {w : Instruction} (h : ¬ 15 ≤ w.opcode.toNat) : ∃ i, w.toInstr = .ok i := by
  unfold Instruction.toInstr
  split
  case h_30 => grind
  all_goals exact ⟨_, rfl⟩

/-- Settles O52: the opcode of the record is the header's low five bits. -/
theorem unknownOpcodesAreRefused : Obligations.UnknownOpcodesAreRefused := by
  intro b0 b1 b2 b3 b4 b5
  refine ⟨fun h => ?_, fun h => ?_⟩
  · have herror := Instruction.toInstr_eq_error (w := Instruction.decode b0 b1 b2 b3 b4 b5) h
    rw [decode, herror]
    rfl
  · obtain ⟨i, hi⟩ := Instruction.exists_toInstr_eq_ok (w := Instruction.decode b0 b1 b2 b3 b4 b5) h
    exact ⟨i, (decode_six_cons_eq_ok_iff ..).mpr ⟨hi, rfl⟩⟩

/-- Settles O50, by running the decoder on the seven words. -/
theorem sampleWordsDecode : Obligations.SampleWordsDecode := by
  unfold Obligations.SampleWordsDecode
  decide

/-- Settles O53: the fields and codes are read off the tables, and a field above 8 by `Reg.ofField_eq_none_iff`. -/
theorem registerAndFaultNumbers : Obligations.RegisterAndFaultNumbers :=
  ⟨rfl, fun f => (Reg.ofField_eq_none_iff f).mpr, rfl⟩

end Sys2Proof
end

section
/-! The cycle (spec/40_cycle.md R80 to R88): the state each of its cases gives, the invariant, and runs of cycles. -/

namespace Sys2Proof.Machine

/-- A healthy core whose fetch fails takes MemoryFault (R81). -/
theorem step_fetch_fault {s : State} (hl : s.latch = none) (hf : fetch s = none) :
    step s = .next (s.takeFault .memoryFault) := by
  simp [step, hl, hf, cycleFetchFault]

/-- A healthy core that fetches an unknown opcode takes OpcodeFault, `last` set (R67, R82). -/
theorem step_unknown_opcode {s : State} {w : Instruction} {e : DecodeError} (hl : s.latch = none)
    (hf : fetch s = some w) (hw : w.toInstr = .error e) :
    step s = .next ((s.fetched w).takeFault .opcodeFault) := by
  simp [step, hl, hf, hw, cycleUnknownOpcode]

/-- What a state after one cycle is: the same state of a latched core, a fetch fault taken, an unknown opcode's fault
taken with `last` set, or what the fetched instruction gives (R88). -/
theorem step_next_cases {s t : State} (h : step s = .next t) :
    (s.latch ≠ none ∧ t = s) ∨
      (s.latch = none ∧ fetch s = none ∧ t = s.takeFault .memoryFault) ∨
      (∃ w e, s.latch = none ∧ fetch s = some w ∧ w.toInstr = .error e ∧ t = (s.fetched w).takeFault .opcodeFault) ∨
      (∃ w i, s.latch = none ∧ fetch s = some w ∧ w.toInstr = .ok i ∧ exec i (s.fetched w) = .next t) := by
  rcases step_cases s with ⟨k, hl, hs⟩ | ⟨hl, hf, hs⟩ | ⟨w, e, hl, hf, hw, hs⟩ | ⟨w, i, hl, hf, hw, hs⟩ <;> rw [hs] at h
  · exact .inl ⟨by simp [hl], (Host.Outcome.next.inj h).symm⟩
  · exact .inr (.inl ⟨hl, hf, (Host.Outcome.next.inj h).symm⟩)
  · exact .inr (.inr (.inl ⟨w, e, hl, hf, hw, (Host.Outcome.next.inj h).symm⟩))
  · exact .inr (.inr (.inr ⟨w, i, hl, hf, hw, h⟩))

/-- Every instruction gives a next state from every state. -/
theorem exec_total (i : Instr) (s : State) : ∃ t, exec i s = .next t := by
  rcases exec_cases i s with ⟨k, h⟩ | ⟨ws, h⟩
  · exact ⟨_, h⟩
  · exact ⟨_, h⟩

/-- Every cycle gives a next state. -/
theorem step_total (s : State) : ∃ t, step s = .next t := by
  rcases step_cases s with ⟨k, -, hs⟩ | ⟨-, -, hs⟩ | ⟨w, e, -, -, -, hs⟩ | ⟨w, i, -, -, -, hs⟩
  · exact ⟨_, hs⟩
  · exact ⟨_, hs⟩
  · exact ⟨_, hs⟩
  · rw [hs]
    exact exec_total i _

/-- Settles O36, by the cases of a cycle: a fault changes no byte, and the fault of an instruction is latched with that
instruction in `last`. -/
theorem stepKeepsInv : Obligations.StepKeepsInv := by
  rintro s t ⟨hwf, hmin, hmax, hlast⟩ h
  rcases step_next_cases h with ⟨-, rfl⟩ | ⟨-, -, rfl⟩ | ⟨w, e, -, -, -, rfl⟩ | ⟨w, i, -, -, -, hexec⟩
  · exact ⟨hwf, hmin, hmax, hlast⟩
  · exact ⟨hwf, hmin, hmax, .inr (.inl rfl)⟩
  · exact ⟨hwf, hmin, hmax, .inr (.inr (by simp))⟩
  · obtain ⟨htlast, hcap, htwf, -⟩ := exec_frame hexec
    rw [State.fetched_mem] at hcap htwf
    exact ⟨htwf hwf, hcap.symm ▸ hmin, hcap.symm ▸ hmax, .inr (.inr (by simp [htlast]))⟩

/-- A fetch does not look at `last`, and one that succeeds overwrites it. -/
theorem fetch_setLast (s : State) (l : Option Instruction) : fetch (s.setLast l) = fetch s := rfl
theorem State.fetched_setLast (s : State) (l : Option Instruction) (w : Instruction) :
    (s.setLast l).fetched w = s.fetched w := rfl

/-- Settles O40: the two cores fetch alike, and a fetch that succeeds overwrites `last` before the instruction runs. -/
theorem lastIsDiagnosticOnly : Obligations.LastIsDiagnosticOnly := by
  intro s l
  have hset : ({ s with last := l } : State) = s.setLast l := rfl
  rw [hset]
  cases hl : s.latch with
  | some k =>
    have hl' : (s.setLast l).latch = some k := hl
    exact ⟨_, _, step_latched hl, step_latched hl', rfl, rfl, rfl⟩
  | none =>
    have hl' : (s.setLast l).latch = none := hl
    cases hf : fetch s with
    | none =>
      have hf' := (fetch_setLast s l).trans hf
      exact ⟨_, _, step_fetch_fault hl hf, step_fetch_fault hl' hf', rfl, rfl, rfl⟩
    | some w =>
      have hf' := (fetch_setLast s l).trans hf
      cases hw : w.toInstr with
      | error e => exact ⟨_, _, step_unknown_opcode hl hf hw, step_unknown_opcode hl' hf' hw, rfl, rfl, rfl⟩
      | ok i =>
        obtain ⟨t, ht⟩ := exec_total i (s.fetched w)
        refine ⟨t, t, (step_runs hl hf hw).trans ht, ?_, rfl, rfl, rfl⟩
        rw [step_runs hl' hf' hw, State.fetched_setLast, ht]

/-- Settles O43: a fault changes no byte, and no instruction changes the capacity. -/
theorem capacityNeverChanges : Obligations.CapacityNeverChanges := by
  intro s t h
  rcases step_next_cases h with ⟨-, rfl⟩ | ⟨-, -, rfl⟩ | ⟨w, e, -, -, -, rfl⟩ | ⟨w, i, -, -, -, hexec⟩
  · rfl
  · rfl
  · rfl
  · obtain ⟨-, hcap, -, -⟩ := exec_frame hexec
    exact hcap

/-- Settles O37: an empty list of bytes has the canonical form, and 8192 is in the range of R8. -/
theorem resetMeetsInv : Obligations.ResetMeetsInv :=
  ⟨reset_mem_wf, by decide, by decide, .inl rfl⟩

/-! What the cycle does at a given fetch -/

/-- Settles O39: the six bytes are the ones a fetch reads, so the fetched record is theirs. -/
theorem stepRunsDecodedInstruction : Obligations.StepRunsDecodedInstruction := by
  intro s i b0 b1 b2 b3 b4 b5 hl hin hbytes hdecode _
  obtain ⟨hw, -⟩ := (decode_six_cons_eq_ok_iff ..).mp hdecode
  have hfetch : fetch s = some (Instruction.decode b0 b1 b2 b3 b4 b5) := by
    simp only [List.map_cons, List.map_nil, List.cons.injEq, and_true, add_zero] at hbytes
    obtain ⟨rfl, rfl, rfl, rfl, rfl, rfl⟩ := hbytes
    exact fetch_eq_some hin
  exact step_runs hl hfetch hw

/-- Settles O29: the opcode map refuses the record. -/
theorem unknownOpcodeFaults : Obligations.UnknownOpcodeFaults := fun _ _ hl hf hop =>
  step_unknown_opcode hl hf (Instruction.toInstr_eq_error hop)

/-- Settles O30: the fetch fails exactly when its six bytes are not inside memory. -/
theorem fetchOutOfMemoryFaults : Obligations.FetchOutOfMemoryFaults := fun s hl hout =>
  step_fetch_fault hl ((fetch_eq_none_iff s).mpr (not_le.mpr hout))

/-! Faults -/

/-- A healthy core whose cycle ends with the latch set took a fault: at the fetch, or after it with `last` set, and
changed nothing else (R82, R177). -/
theorem faulted_step_cases {s t : State} (hl : s.latch = none) (h : step s = .next t) (ht : t.latch ≠ none) :
    (fetch s = none ∧ t = s.takeFault .memoryFault) ∨
      ∃ w k, fetch s = some w ∧ t = (s.fetched w).takeFault k := by
  rcases step_next_cases h with ⟨hl', -⟩ | ⟨-, hf, ht'⟩ | ⟨w, e, -, hf, -, ht'⟩ | ⟨w, i, -, hf, -, hexec⟩
  · exact absurd hl hl'
  · exact .inl ⟨hf, ht'⟩
  · exact .inr ⟨w, _, hf, ht'⟩
  · obtain ⟨-, -, -, hkept | ⟨k, ht'⟩⟩ := exec_frame hexec
    · exact absurd (hkept.trans hl) ht
    · exact .inr ⟨w, k, hf, ht'⟩

/-- Settles O31: a fault is taken in the state of before, or in that state with `last` set by the fetch. -/
theorem faultIsPrecise : Obligations.FaultIsPrecise := by
  intro s t hl h ht
  rcases faulted_step_cases hl h ht with ⟨hf, rfl⟩ | ⟨w, k, hf, rfl⟩
  · rw [hf]
    exact ⟨rfl, rfl, rfl⟩
  · rw [hf]
    exact ⟨rfl, rfl, rfl⟩

/-- A healthy core does the same cycle again once `last` holds the instruction it fetches. -/
theorem step_fetched {s : State} {w : Instruction} (hl : s.latch = none) (hf : fetch s = some w) :
    step (s.fetched w) = step s := by
  have hl' : (s.fetched w).latch = none := hl
  have hf' : fetch (s.fetched w) = some w := hf
  cases hw : w.toInstr with
  | error e => rw [step_unknown_opcode hl hf hw, step_unknown_opcode hl' hf' hw]; rfl
  | ok i => rw [step_runs hl hf hw, step_runs hl' hf' hw]; rfl

/-- `reset()` of a healthy core gives the same state (R192). -/
theorem State.clearLatch_of_healthy {s : State} (hl : s.latch = none) : s.clearLatch = s := by
  obtain ⟨regs, mem, latch, last⟩ := s
  cases hl
  rfl

/-- `reset()` after a fault of a healthy core gives back the state that took it. -/
theorem State.clearLatch_takeFault {s : State} (hl : s.latch = none) (k : Fault) : (s.takeFault k).clearLatch = s :=
  State.clearLatch_of_healthy hl

/-- Settles O34: `reset()` gives back the state of before the cycle, or that state with `last` already set. -/
theorem retryAfterResetRefaults : Obligations.RetryAfterResetRefaults := by
  intro s t hl h ht
  rcases faulted_step_cases hl h ht with ⟨-, rfl⟩ | ⟨w, k, hf, rfl⟩
  · rw [State.clearLatch_takeFault hl, h]
  · rw [State.clearLatch_takeFault (s := s.fetched w) hl, step_fetched hl hf, h]

/-! Runs -/

/-- A state that a cycle gives back is the end of every run from it. -/
theorem core_run_of_step_self {s : State} (h : step s = .next s) (n : Nat) :
    Host.Core.run Sys2Proof.core n s = .next s := by
  induction n with
  | zero => exact core_run_zero s
  | succ n ih => rw [core_run_succ h, ih]

/-- Settles O32: a cycle of a latched core gives back the same state. -/
theorem latchedCoreStaysPut : Obligations.LatchedCoreStaysPut := by
  intro s hl n
  obtain ⟨k, hk⟩ := Option.ne_none_iff_exists'.mp hl
  exact core_run_of_step_self (step_latched hk) n

/-- Settles O35, by induction on the number of cycles: each gives a next state. -/
theorem everyRunGoesOn : Obligations.EveryRunGoesOn := by
  intro s n
  induction n generalizing s with
  | zero => exact ⟨s, core_run_zero s⟩
  | succ n ih =>
    obtain ⟨t, ht⟩ := step_total s
    rw [core_run_succ ht]
    exact ih t

/-- A JMP to the address it stands at, inside memory, gives the state it runs in (R165). -/
theorem exec_jmpImm_self {s : State} (h : s.regs.ip.toNat + 6 ≤ s.mem.capacity) :
    exec (.jmpImm s.regs.ip) s = .next s := by
  have hjump : execute (.jmpImm s.regs.ip) s = .ok [.reg .ip s.regs.ip] := jumpTo_eq_ok.mpr ⟨h, rfl⟩
  rw [exec_eq_finish, hjump]
  rfl

/-- Settles O26: the first cycle sets `last`, and every later one gives back the state it starts from. -/
theorem idleLoopIsFixedPoint : Obligations.IdleLoopIsFixedPoint := by
  intro s w hl hf hw n
  have hin : s.regs.ip.toNat + 6 ≤ s.mem.capacity := by
    by_contra hout
    rw [(fetch_eq_none_iff s).mpr hout] at hf
    cases hf
  have hfirst : step s = .next (s.fetched w) := (step_runs hl hf hw).trans (exec_jmpImm_self (s := s.fetched w) hin)
  rw [core_run_succ hfirst]
  exact core_run_of_step_self ((step_fetched hl hf).trans hfirst) n

end Sys2Proof.Machine
end

section
/-! What every instruction collects (`execute`, spec/40_cycle.md R88), said once for all of them: which writes, which
faults, and what of the state its effect depends on. -/

namespace Sys2Proof.Machine

/-! The registers and bytes an instruction may write -/

/-- The registers an instruction writes without a field that names them: the product and the quotient's pair (R24), the
destination of the logic operations (R23), the stack pointer (R25), and the target of a JUMP (R27). -/
def implicitWrites : Instr → List Reg
  | .mulu _ _ | .muls _ _ => [.e]
  | .divu _ _ | .divs _ _ => [.e, .f]
  | .orReg _ _ | .orImm _ _ | .andReg _ _ | .andImm _ _ | .xorReg _ _ | .xorImm _ _ => [.c]
  | .notReg _ | .notImm _ | .shrReg _ _ | .shrImm _ _ | .shlReg _ _ | .shlImm _ _ => [.c]
  | .pop _ | .push _ _ => [.sp]
  | .jzReg _ | .jnsReg _ | .jsReg _ | .jmpReg _ | .jzImm _ | .jnsImm _ | .jsImm _ | .jmpImm _ => [.ip]
  | .nop | .loadImm _ _ | .loadMem _ _ _ | .storeReg _ _ | .storeMem _ _ _ => []
  | .addReg _ _ | .addImm _ _ | .subReg _ _ | .subImm _ _ => []

/-- The writes an instruction may collect: to the register its written field names, to its implicit registers, and to
memory when it is one of the two that store. -/
def MayWrite (i : Instr) : Write → Prop
  | .reg r _ => (∃ f, i.writtenField = some f ∧ Reg.ofField f = some r) ∨ r ∈ implicitWrites i
  | .mem _ _ _ => i.storesMemory = true

/-- Every write an instruction collects is one it may collect. -/
theorem mayWrite_of_execute {i : Instr} {s : State} {ws : List Write} (h : execute i s = .ok ws) :
    ∀ w ∈ ws, MayWrite i w := by
  cases i with
  | nop | notImm v =>
    obtain rfl := Except.ok.inj h
    simp [MayWrite, implicitWrites]
  | loadImm rd v | addImm rd v | subImm rd v | orImm rd v | andImm rd v | xorImm rd v | notReg rd | shrImm rd v
    | shlImm rd v =>
    obtain ⟨dst, hd, h⟩ := withReg_eq_ok.mp h
    obtain rfl := Except.ok.inj h
    simp [MayWrite, implicitWrites, Instr.writtenField, hd]
  | storeReg rd rs | addReg rd rs | subReg rd rs | mulu rd rs | muls rd rs | orReg rd rs | andReg rd rs | xorReg rd rs
    | shrReg rd rs | shlReg rd rs =>
    obtain ⟨dst, hd, h⟩ := withReg_eq_ok.mp h
    obtain ⟨src, -, h⟩ := withReg_eq_ok.mp h
    obtain rfl := Except.ok.inj h
    simp [MayWrite, implicitWrites, Instr.writtenField, hd]
  | divu rd rs | divs rd rs =>
    obtain ⟨dst, -, h⟩ := withReg_eq_ok.mp h
    obtain ⟨src, -, h⟩ := withReg_eq_ok.mp h
    split at h
    · cases h
    · obtain rfl := Except.ok.inj h
      simp [MayWrite, implicitWrites]
  | loadMem rd w v | storeMem rd w v | push rd w =>
    obtain ⟨dst, hd, h⟩ := withReg_eq_ok.mp h
    obtain ⟨-, h⟩ := withSize_eq_ok.mp h
    obtain ⟨-, h⟩ := withSpan_eq_ok.mp h
    obtain rfl := Except.ok.inj h
    simp [MayWrite, implicitWrites, Instr.writtenField, Instr.storesMemory, hd]
  | pop rd =>
    obtain ⟨dst, hd, h⟩ := withReg_eq_ok.mp h
    obtain ⟨-, h⟩ := withSpan_eq_ok.mp h
    obtain rfl := Except.ok.inj h
    simp [MayWrite, implicitWrites, Instr.writtenField, hd]
  | jzReg rd | jnsReg rd | jsReg rd | jmpReg rd =>
    obtain ⟨dst, -, h⟩ := withReg_eq_ok.mp h
    obtain ⟨-, rfl⟩ := jumpTo_eq_ok.mp h
    split <;> simp [MayWrite, implicitWrites]
  | jzImm v | jnsImm v | jsImm v | jmpImm v =>
    obtain ⟨-, rfl⟩ := jumpTo_eq_ok.mp h
    split <;> simp [MayWrite, implicitWrites]

/-- The implicit registers are `c`, `e`, `f`, `sp` and, for a JUMP only, `ip` (R23 to R27). -/
theorem implicitWrites_cases {i : Instr} {r : Reg} (h : r ∈ implicitWrites i) :
    r = .c ∨ r = .e ∨ r = .f ∨ r = .sp ∨ (r = .ip ∧ i.isJump = true) := by
  cases i <;> simp_all [implicitWrites, Instr.isJump] <;> tauto

/-- A written field is a used field (R69). -/
theorem mem_usedFields_of_writtenField {i : Instr} {f : RegField} (h : i.writtenField = some f) : f ∈ i.usedFields := by
  cases i <;> simp_all [Instr.writtenField, Instr.usedFields]

/-- Only the field 8 names `ip` (R21). -/
theorem Reg.ofField_eq_some_ip {f : RegField} (h : Reg.ofField f = some .ip) : f = 8#4 := by
  revert f; decide

/-- Settles O25: `ip` is no implicit register of an instruction other than a JUMP, and only the field 8 names it, so none
of the collected writes is to `ip`. -/
theorem ipAdvancesUnlessWritten : Obligations.IpAdvancesUnlessWritten := by
  intro i s t _ h ht hjump hfield
  rcases exec_next_cases h with ⟨k, -, rfl⟩ | ⟨ws, hws, rfl⟩
  · simp at ht
  · refine State.retire_ip_of_not_written s (List.any_eq_false.mpr fun w hw => ?_)
    have hmay := mayWrite_of_execute hws w hw
    rcases w with ⟨r, v⟩ | ⟨addr, n, v⟩
    · have hr : r ≠ .ip := by
        rintro rfl
        rcases hmay with ⟨f, hf, hip⟩ | himp
        · exact hfield (hf.trans (congrArg some (Reg.ofField_eq_some_ip hip)))
        · simpa [hjump] using implicitWrites_cases himp
      cases r <;> simp_all [Write.isIp]
    · simp [Write.isIp]

/-- Writes to registers alone leave memory. -/
theorem State.commit_mem_of_no_store {ws : List Write} (h : ∀ addr n v, Write.mem addr n v ∉ ws) (s : State) :
    (s.commit ws).mem = s.mem := by
  induction ws generalizing s with
  | nil => rfl
  | cons w ws ih =>
    rw [State.commit_cons, ih fun addr n v hmem => h addr n v (List.mem_cons_of_mem w hmem)]
    cases w with
    | reg r v => rfl
    | mem addr n v => exact absurd List.mem_cons_self (h addr n v)

/-- Settles O42: an instruction that does not store collects register writes alone, and a fault changes no byte. -/
theorem onlyStoresChangeMemory : Obligations.OnlyStoresChangeMemory := by
  intro i s t hstore h
  have hmem : t.mem = s.mem := by
    rcases exec_next_cases h with ⟨k, -, rfl⟩ | ⟨ws, hws, rfl⟩
    · rfl
    · rw [State.retire_mem]
      refine State.commit_mem_of_no_store (fun addr n v hw => ?_) s
      have hmay : i.storesMemory = true := mayWrite_of_execute hws _ hw
      simp [hstore] at hmay
  rw [hmem]
  exact ⟨rfl, fun _ => rfl⟩

/-! What the collected effect depends on -/

/-- A used register field asks for what follows it at the register it names only. -/
theorem withReg_congr {f : RegField} {k k' : Reg → Effect} (h : ∀ r, Reg.ofField f = some r → k r = k' r) :
    withReg f k = withReg f k' := by
  rcases withReg_cases f k with ⟨hf, -⟩ | ⟨r, hf, -⟩
  · rw [withReg_none hf, withReg_none hf]
  · rw [withReg_some hf, withReg_some hf, h r hf]

section SameEffect
variable {s s' : State} (hmem : s'.mem = s.mem)
include hmem

theorem withSpan_congr (addr : Word) (n : Nat) (x : Effect) : withSpan s' addr n x = withSpan s addr n x := by
  rw [withSpan, withSpan, hmem]

theorem State.load_congr (addr : Word) (n : Nat) : s'.load addr n = s.load addr n := by
  rw [State.load, State.load, hmem]

theorem jumpTo_congr (hc : s'.regs.get .c = s.regs.get .c) (cond : JumpCond) (target : Word) :
    jumpTo s' cond target = jumpTo s cond target := by
  rw [jumpTo, jumpTo, hc, withSpan_congr hmem]

/-- The effect of an instruction depends on memory, on the registers its used fields name, and on `c` and `sp`. -/
theorem execute_congr {i : Instr} (hc : s'.regs.get .c = s.regs.get .c) (hsp : s'.regs.sp = s.regs.sp)
    (hfields : ∀ f ∈ i.usedFields, ∀ r, Reg.ofField f = some r → s'.regs.get r = s.regs.get r) :
    execute i s' = execute i s := by
  cases i with
  | nop | loadImm rd v | notImm v => rfl
  | addImm rd v | subImm rd v | orImm rd v | andImm rd v | xorImm rd v | notReg rd | shrImm rd v | shlImm rd v =>
    exact withReg_congr fun dst hd => by rw [hfields rd (by simp [Instr.usedFields]) dst hd]
  | storeReg rd rs =>
    exact withReg_congr fun dst _ => withReg_congr fun src hs => by rw [hfields rs (by simp [Instr.usedFields]) src hs]
  | addReg rd rs | subReg rd rs | mulu rd rs | muls rd rs | divu rd rs | divs rd rs | orReg rd rs | andReg rd rs
    | xorReg rd rs | shrReg rd rs | shlReg rd rs =>
    exact withReg_congr fun dst hd => withReg_congr fun src hs => by
      rw [hfields rd (by simp [Instr.usedFields]) dst hd, hfields rs (by simp [Instr.usedFields]) src hs]
  | loadMem rd w v => simp only [execute, withSpan_congr hmem, State.load_congr hmem]
  | pop rd => simp only [execute, withSpan_congr hmem, State.load_congr hmem, hsp]
  | storeMem rd w v | push rd w =>
    simp only [execute, withSpan_congr hmem, hsp]
    exact withReg_congr fun dst hd => by rw [hfields rd (by simp [Instr.usedFields]) dst hd]
  | jzReg rd | jnsReg rd | jsReg rd | jmpReg rd =>
    simp only [execute, jumpTo_congr hmem hc]
    exact withReg_congr fun dst hd => by rw [hfields rd (by simp [Instr.usedFields]) dst hd]
  | jzImm v | jnsImm v | jsImm v | jmpImm v => exact jumpTo_congr hmem hc _ _

end SameEffect

/-! A register that no collected write names -/

section UnwrittenRegister
variable {q : Reg} {ws : List Write} (h : ∀ u, Write.reg q u ∉ ws)
include h

/-- Writes that do not name a register leave it. -/
theorem State.commit_get_of_not_written (s : State) : (s.commit ws).regs.get q = s.regs.get q := by
  induction ws generalizing s with
  | nil => rfl
  | cons w ws ih =>
    rw [State.commit_cons, ih fun u hu => h u (List.mem_cons_of_mem w hu)]
    cases w with
    | mem addr n v => rfl
    | reg r v =>
      refine Regs.get_set_of_ne _ _ ?_
      rintro rfl
      exact h v List.mem_cons_self

/-- Setting such a register before the writes is setting it after them. -/
theorem State.commit_setReg_of_not_written (s : State) (v : Word) :
    (s.setReg q v).commit ws = (s.commit ws).setReg q v := by
  induction ws generalizing s with
  | nil => rfl
  | cons w ws ih =>
    have hcomm : (s.setReg q v).applyWrite w = (s.applyWrite w).setReg q v := by
      cases w with
      | mem addr n u => rfl
      | reg r u =>
        have hne : r ≠ q := by
          rintro rfl
          exact h u List.mem_cons_self
        exact congrArg (fun x => { s with regs := x }) (Regs.set_comm s.regs v u hne)
    rw [State.commit_cons, State.commit_cons, hcomm, ih fun u hu => h u (List.mem_cons_of_mem w hu)]

/-- The same of a whole instruction, for a register other than `ip`. -/
theorem State.retire_setReg_of_not_written (hip : q ≠ .ip) (s : State) (v : Word) :
    (s.setReg q v).retire ws = (s.retire ws).setReg q v := by
  unfold State.retire
  rw [State.commit_setReg_of_not_written h, State.setReg_regs, Regs.get_set_of_ne _ _ (Ne.symm hip)]
  split
  · rfl
  · exact congrArg (fun x => { s.commit ws with regs := x }) (Regs.set_comm (s.commit ws).regs _ _ (Ne.symm hip))

end UnwrittenRegister

/-- Settles O41: a register that no used field names, other than the implicit `c`, `e`, `f`, `sp` and `ip`, is neither
read into the collected effect nor written by it. -/
theorem unnamedRegistersAreUntouched : Obligations.UnnamedRegistersAreUntouched := by
  intro i s q v hq hunnamed
  have himplicit : q ≠ .c ∧ q ≠ .e ∧ q ≠ .f ∧ q ≠ .sp ∧ q ≠ .ip := by
    rcases hq with rfl | rfl | rfl | rfl <;> decide
  obtain ⟨hc, he, hf, hsp, hip⟩ := himplicit
  have heffect : execute i (s.setReg q v) = execute i s := by
    refine execute_congr (State.setReg_mem s q v) (Regs.get_set_of_ne _ _ hc.symm) (Regs.get_set_of_ne s.regs v hsp.symm) ?_
    intro f hused r hr
    refine Regs.get_set_of_ne _ _ ?_
    rintro rfl
    exact hunnamed f hused hr
  rw [exec_eq_finish, exec_eq_finish, heffect]
  cases hx : execute i s with
  | error k => exact ⟨s.takeFault k, rfl, rfl, rfl⟩
  | ok ws =>
    have hnot : ∀ u, Write.reg q u ∉ ws := by
      intro u hu
      rcases mayWrite_of_execute hx _ hu with ⟨f, hwritten, hr⟩ | himp
      · exact hunnamed f (mem_usedFields_of_writtenField hwritten) hr
      · simpa [hc, he, hf, hsp, hip] using implicitWrites_cases himp
    refine ⟨s.retire ws, rfl, ?_, congrArg _ (State.retire_setReg_of_not_written hnot hip s v)⟩
    rw [State.retire_get_of_ne_ip s ws hip, State.commit_get_of_not_written hnot]

end Sys2Proof.Machine
end

section
/-! Which faults an instruction can raise, in the order of R176 (decision D24): the register fields, the access size,
and then the zero divisor and the span. -/

namespace Sys2Proof.Machine

/-! The operand forms read backwards, when they end in a fault -/

theorem withReg_eq_error {f : RegField} {next : Reg → Effect} {k : Fault} :
    withReg f next = .error k ↔
      (Reg.ofField f = none ∧ k = .indexFault) ∨ ∃ r, Reg.ofField f = some r ∧ next r = .error k := by
  cases h : Reg.ofField f <;> simp [withReg, h, eq_comm]

theorem withSize_eq_error {w : WidthField} {next : Nat → Effect} {k : Fault} :
    withSize w next = .error k ↔
      (w = 3#2 ∧ k = .opcodeFault) ∨ (w ≠ 3#2 ∧ next (2 ^ w.toNat) = .error k) := by
  by_cases h : w = 3#2 <;> simp [withSize, accessBytes, h, eq_comm]

theorem withSpan_ok_eq_error {s : State} {addr : Word} {n : Nat} {ws : List Write} {k : Fault}
    (h : withSpan s addr n (.ok ws) = .error k) : k = .memoryFault := by
  rcases withSpan_cases s addr n (.ok ws) with ⟨-, hx⟩ | ⟨-, hx⟩
  · exact (Except.error.inj (hx.symm.trans h)).symm
  · cases hx.symm.trans h

theorem jumpTo_eq_error {s : State} {cond : JumpCond} {target : Word} {k : Fault}
    (h : jumpTo s cond target = .error k) : k = .memoryFault :=
  withSpan_ok_eq_error h

/-! One fault at a time -/

/-- The reasons for which an instruction may raise a fault (R172 to R175). -/
def MayRaise (i : Instr) (k : Fault) : Prop :=
  (k = .indexFault ∧ ∃ f ∈ i.usedFields, Reg.ofField f = none) ∨ (k = .opcodeFault ∧ i.sizeField = some 3#2) ∨
    (k = .divideByZero ∧ ∃ rd rs, i = .divu rd rs ∨ i = .divs rd rs) ∨ k = .memoryFault

/-- Every fault an instruction raises is one it has a reason for. -/
theorem mayRaise_of_execute {i : Instr} {s : State} {k : Fault} (h : execute i s = .error k) : MayRaise i k := by
  cases i with
  | nop | notImm v => cases h
  | loadImm rd v | addImm rd v | subImm rd v | orImm rd v | andImm rd v | xorImm rd v | notReg rd | shrImm rd v
    | shlImm rd v =>
    rcases withReg_eq_error.mp h with ⟨hd, rfl⟩ | ⟨dst, -, h⟩
    · exact .inl ⟨rfl, rd, by simp [Instr.usedFields], hd⟩
    · cases h
  | storeReg rd rs | addReg rd rs | subReg rd rs | mulu rd rs | muls rd rs | orReg rd rs | andReg rd rs | xorReg rd rs
    | shrReg rd rs | shlReg rd rs =>
    rcases withReg_eq_error.mp h with ⟨hd, rfl⟩ | ⟨dst, -, h⟩
    · exact .inl ⟨rfl, rd, by simp [Instr.usedFields], hd⟩
    · rcases withReg_eq_error.mp h with ⟨hs, rfl⟩ | ⟨src, -, h⟩
      · exact .inl ⟨rfl, rs, by simp [Instr.usedFields], hs⟩
      · cases h
  | divu rd rs | divs rd rs =>
    rcases withReg_eq_error.mp h with ⟨hd, rfl⟩ | ⟨dst, -, h⟩
    · exact .inl ⟨rfl, rd, by simp [Instr.usedFields], hd⟩
    · rcases withReg_eq_error.mp h with ⟨hs, rfl⟩ | ⟨src, -, h⟩
      · exact .inl ⟨rfl, rs, by simp [Instr.usedFields], hs⟩
      · split at h
        · exact .inr (.inr (.inl ⟨(Except.error.inj h).symm, rd, rs, by simp⟩))
        · cases h
  | loadMem rd w v | storeMem rd w v | push rd w =>
    rcases withReg_eq_error.mp h with ⟨hd, rfl⟩ | ⟨dst, -, h⟩
    · exact .inl ⟨rfl, rd, by simp [Instr.usedFields], hd⟩
    · rcases withSize_eq_error.mp h with ⟨rfl, rfl⟩ | ⟨-, h⟩
      · exact .inr (.inl ⟨rfl, rfl⟩)
      · exact .inr (.inr (.inr (withSpan_ok_eq_error h)))
  | pop rd =>
    rcases withReg_eq_error.mp h with ⟨hd, rfl⟩ | ⟨dst, -, h⟩
    · exact .inl ⟨rfl, rd, by simp [Instr.usedFields], hd⟩
    · exact .inr (.inr (.inr (withSpan_ok_eq_error h)))
  | jzReg rd | jnsReg rd | jsReg rd | jmpReg rd =>
    rcases withReg_eq_error.mp h with ⟨hd, rfl⟩ | ⟨dst, -, h⟩
    · exact .inl ⟨rfl, rd, by simp [Instr.usedFields], hd⟩
    · exact .inr (.inr (.inr (jumpTo_eq_error h)))
  | jzImm v | jnsImm v | jsImm v | jmpImm v => exact .inr (.inr (.inr (jumpTo_eq_error h)))

/-- A used register field that names no register is an IndexFault, whatever else the instruction holds (R66). -/
theorem execute_of_illegal_field {i : Instr} {f : RegField} (hused : f ∈ i.usedFields) (hf : Reg.ofField f = none)
    (s : State) : execute i s = .error .indexFault := by
  cases i with
  | nop | notImm v | jzImm v | jnsImm v | jsImm v | jmpImm v => simp [Instr.usedFields] at hused
  | loadImm rd v | addImm rd v | subImm rd v | orImm rd v | andImm rd v | xorImm rd v | notReg rd | shrImm rd v
    | shlImm rd v | loadMem rd w v | storeMem rd w v | push rd w | pop rd | jzReg rd | jnsReg rd | jsReg rd
    | jmpReg rd =>
    obtain rfl := List.mem_singleton.mp hused
    exact withReg_none hf _
  | storeReg rd rs | addReg rd rs | subReg rd rs | mulu rd rs | muls rd rs | orReg rd rs | andReg rd rs | xorReg rd rs
    | shrReg rd rs | shlReg rd rs | divu rd rs | divs rd rs =>
    obtain rfl | rfl := List.mem_pair.mp hused
    · exact withReg_withReg_none (.inl hf) _
    · exact withReg_withReg_none (.inr hf) _

/-- Settles O27: the fields are what every instruction checks first. -/
theorem illegalRegisterFieldFaults : Obligations.IllegalRegisterFieldFaults := by
  rintro i s ⟨f, hused, hf⟩
  exact takesFault_of_execute (execute_of_illegal_field hused ((Reg.ofField_eq_none_iff f).mpr hf) s)

/-- With a legal field before it, width code 3 on a memory access is an OpcodeFault (R68). -/
theorem execute_of_size_three {i : Instr} (hfields : ∀ f ∈ i.usedFields, f.toNat ≤ 8)
    (hsize : i.sizeField = some 3#2) (s : State) : execute i s = .error .opcodeFault := by
  cases i with
  | loadMem rd w v | storeMem rd w v | push rd w =>
    obtain rfl := Option.some.inj hsize
    obtain ⟨dst, hd⟩ := Option.ne_none_iff_exists'.mp
      (mt (Reg.ofField_eq_none_iff rd).mp (not_lt.mpr (hfields rd List.mem_cons_self)))
    exact (withReg_some hd _).trans rfl
  | _ => cases hsize

/-- Settles O28: of the reasons an instruction may have for a fault, legal fields leave out the first, and a legal size
the second. -/
theorem faultsOfLegalFields : Obligations.FaultsOfLegalFields := by
  refine fun i s hfields => ⟨fun hsize => takesFault_of_execute (execute_of_size_three hfields hsize s), fun hwf => ?_⟩
  rw [exec_eq_finish]
  rcases finish_cases s (execute i s) with ⟨k, hk, hnext⟩ | ⟨ws, -, hnext⟩
  · refine ⟨_, hnext, .inr ?_⟩
    rcases mayRaise_of_execute hk with ⟨-, f, hused, hf⟩ | ⟨-, hsize⟩ | ⟨rfl, hdiv⟩ | rfl
    · exact absurd (hfields f hused) (not_le.mpr ((Reg.ofField_eq_none_iff f).mp hf))
    · simp [Instr.wellFormed, hsize] at hwf
    · exact .inr ⟨rfl, hdiv⟩
    · exact .inl rfl
  · exact ⟨_, hnext, .inl (State.retire_latch s ws)⟩

end Sys2Proof.Machine
end

section
/-! LOAD, MULS, DIVS, the shifts and JUMP (spec/41 to spec/45): the instructions that write registers only. -/

namespace Sys2Proof.Machine

/-! Operand forms whose check is decided -/

/-- An access size other than code 3 goes on with `2^width` bytes. -/
theorem withSize_of_ne {w : WidthField} (h : w ≠ 3#2) (next : Nat → Effect) :
    withSize w next = next (2 ^ w.toNat) := by
  simp [withSize, accessBytes, h]

/-- A span inside memory goes on. -/
theorem withSpan_inside {s : State} {addr : Word} {n : Nat} (h : addr.toNat + n ≤ s.mem.capacity) (x : Effect) :
    withSpan s addr n x = x := by
  simp [withSpan, Memory.inBounds, h]

/-- A span not inside memory is a MemoryFault. -/
theorem withSpan_outside {s : State} {addr : Word} {n : Nat} (h : ¬ addr.toNat + n ≤ s.mem.capacity) (x : Effect) :
    withSpan s addr n x = .error .memoryFault := by
  simp [withSpan, Memory.inBounds, h]

/-! LOAD.mem, STORE.mem and PUSH check in one order (R176): the field, the size, the span -/

section SizedAccess
variable {rd : RegField} {dst : Reg} {w : WidthField} {addr : Word} {s : State} (ws : Reg → Nat → List Write)

theorem sizedAccess_inside (hd : Reg.ofField rd = some dst) (hw : w ≠ 3#2)
    (hin : addr.toNat + 2 ^ w.toNat ≤ s.mem.capacity) :
    (withReg rd fun x => withSize w fun n => withSpan s addr n (.ok (ws x n))) = .ok (ws dst (2 ^ w.toNat)) := by
  rw [withReg_some hd, withSize_of_ne hw, withSpan_inside hin]

theorem sizedAccess_outside (hd : Reg.ofField rd = some dst) (hw : w ≠ 3#2)
    (hout : ¬ addr.toNat + 2 ^ w.toNat ≤ s.mem.capacity) :
    (withReg rd fun x => withSize w fun n => withSpan s addr n (.ok (ws x n))) = .error .memoryFault := by
  rw [withReg_some hd, withSize_of_ne hw, withSpan_outside hout]

theorem sizedAccess_size_three (hd : Reg.ofField rd = some dst) :
    (withReg rd fun x => withSize 3#2 fun n => withSpan s addr n (.ok (ws x n))) = .error .opcodeFault :=
  (withReg_some hd _).trans rfl

end SizedAccess

/-- An access size is at most four bytes (R46). -/
theorem two_pow_width_le {w : WidthField} (h : w ≠ 3#2) : 2 ^ w.toNat ≤ 4 :=
  accessBytes_le (accessBytes_eq w h)

/-! LOAD -/

/-- Settles O2, by the register the field names: one write of the whole value to it, otherwise IndexFault. -/
theorem loadImmediateWritesDest : Obligations.LoadImmediateWritesDest := by
  refine ⟨(decodesTo_iff ..).mpr fun _ _ _ _ => rfl, fun rd v s => ?_⟩
  cases hd : Reg.ofField rd with
  | none => exact takesFault_of_execute (withReg_none hd _)
  | some dst => exact completesInRegs_of_execute (withReg_some hd _)

/-- Settles O3: the checks in their order, and then the loaded span, of which `Memory.extract_readSpan` gives each
byte. -/
theorem loadMemoryZeroExtends : Obligations.LoadMemoryZeroExtends := by
  refine ⟨(decodesTo_iff ..).mpr fun _ _ _ _ => rfl, fun rd w v s => ?_⟩
  cases hd : Reg.ofField rd with
  | none => exact takesFault_of_execute (withReg_none hd _)
  | some dst =>
    dsimp only
    split_ifs with hw hin
    · subst hw
      exact takesFault_of_execute (sizedAccess_size_three _ hd)
    · exact ⟨s.load v (2 ^ w.toNat), completesInRegs_of_execute (sizedAccess_inside _ hd hw hin),
        fun k hk => Memory.extract_readSpan s.mem v.toNat (two_pow_width_le hw) hk⟩
    · exact takesFault_of_execute (sizedAccess_outside _ hd hw hin)

/-! MULS and DIVS -/

/-- Settles O9: MULS is the register form into `e` of the signed product. -/
theorem multiplySigned : Obligations.MultiplySigned := by
  refine ⟨(decodesTo_iff ..).mpr fun _ _ _ _ => rfl, fun rd rs s => ?_⟩
  cases hd : Reg.ofField rd with
  | none => exact takesFault_of_intoFixedReg rfl (.inl hd)
  | some dst =>
    cases hs : Reg.ofField rs with
    | none => exact takesFault_of_intoFixedReg rfl (.inr hs)
    | some src => exact completesInRegs_of_intoFixedReg (op := mulSigned) rfl hd hs

/-- Settles O10: the signed and the unsigned product, narrowed to 32 bits, are both the product of words. -/
theorem mulSignednessIrrelevant : Obligations.MulSignednessIrrelevant := by
  intro rd rs s
  have hop : mulSigned = mulUnsigned := funext₂ fun x y => (mulSigned_eq x y).trans (mulUnsigned_eq x y).symm
  calc exec (.muls rd rs) s = intoFixedReg .e mulSigned rd rs s := rfl
    _ = exec (.mulu rd rs) s := by rw [hop]; rfl

/-- DIVS with a divisor other than zero collects two writes, the remainder to `e` and the quotient to `f`, both of the
old operands (R117, R121). -/
theorem execute_divs_of_ne_zero {s : State} {rd rs : RegField} {dst src : Reg} (hd : Reg.ofField rd = some dst)
    (hs : Reg.ofField rs = some src) (h0 : s.regs.get src ≠ 0#32) :
    execute (.divs rd rs) s =
      .ok (regWrites [(.e, (s.regs.get dst).srem (s.regs.get src)), (.f, (s.regs.get dst).sdiv (s.regs.get src))]) := by
  rw [← remSigned_eq, ← quotSigned_eq]
  exact (withReg_withReg_some hd hs _).trans (if_neg h0)

/-- Settles O12: the register fields are checked first, then the divisor; the two writes are computed before either is
committed. -/
theorem divideSigned : Obligations.DivideSigned := by
  refine ⟨(decodesTo_iff ..).mpr fun _ _ _ _ => rfl, fun rd rs s => ?_⟩
  cases hd : Reg.ofField rd with
  | none => exact takesFault_of_execute (withReg_withReg_none (.inl hd) _)
  | some dst =>
    cases hs : Reg.ofField rs with
    | none => exact takesFault_of_execute (withReg_withReg_none (.inr hs) _)
    | some src =>
      dsimp only
      split_ifs with h0
      · exact takesFault_of_execute (execute_divs_zero hd hs h0)
      · exact completesInRegs_of_execute (execute_divs_of_ne_zero hd hs h0)

/-- Truncated division (R120): `n = d*q + r`, `|r| < |d|`, and `r` has the sign of `n` or is 0. -/
theorem tdiv_tmod_law {n d : Int} (h : d ≠ 0) :
    n = d * n.tdiv d + n.tmod d ∧ (n.tmod d).natAbs < d.natAbs ∧ (0 ≤ n → 0 ≤ n.tmod d) ∧ (n ≤ 0 → n.tmod d ≤ 0) := by
  refine ⟨(Int.mul_tdiv_add_tmod n d).symm, ?_, Int.tmod_nonneg d, fun hn => ?_⟩
  · rw [Int.natAbs_tmod]
    exact Nat.mod_lt _ (Int.natAbs_pos.mpr h)
  · have := Int.tmod_nonneg d (Int.neg_nonneg_of_nonpos hn)
    rw [Int.neg_tmod] at this
    omega

/-- The quotient of two words does not overflow but for `-2^31 / -1`. -/
theorem toInt_sdiv_of_ne_corner {n d : Word} (h : ¬ (n.toInt = -2147483648 ∧ d.toInt = -1)) :
    (n.sdiv d).toInt = n.toInt.tdiv d.toInt := by
  refine BitVec.toInt_sdiv_of_ne_or_ne n d ?_
  rw [or_iff_not_imp_left, not_not]
  rintro rfl rfl
  exact h ⟨by decide, by decide⟩

/-- What an instruction completes with is what it completes with in the state it gives. -/
theorem completesInRegs_at {i : Instr} {s t : State} {ws : List (Reg × Word)} (h : CompletesInRegs i s ws)
    (ht : exec i s = .next t) : WritesExactly i s t ws ∧ SameMemory s t := by
  obtain ⟨t', hw, hm⟩ := h
  have hnext := hw.1
  rw [ht, Host.Outcome.next.injEq] at hnext
  subst hnext
  exact ⟨hw, hm⟩

/-- Settles O13: outside the corner the two results are the truncated quotient and remainder themselves, and truncated
division has the law. -/
theorem signedDivisionLaw : Obligations.SignedDivisionLaw := by
  intro rd rs dst src s t hd hs h0 h
  obtain ⟨⟨-, -, -, hwritten, -⟩, -⟩ :=
    completesInRegs_at (completesInRegs_of_execute (execute_divs_of_ne_zero hd hs h0)) h
  have he : t.regs.e = (s.regs.get dst).srem (s.regs.get src) := hwritten .e _ rfl
  have hf : t.regs.f = (s.regs.get dst).sdiv (s.regs.get src) := hwritten .f _ rfl
  rw [he, hf]
  generalize s.regs.get dst = n at *
  generalize s.regs.get src = d at *
  split_ifs with hcorner
  · obtain ⟨hn, hm⟩ := hcorner
    obtain rfl : n = 0x80000000#32 := BitVec.eq_of_toInt_eq hn
    obtain rfl : d = 0xFFFFFFFF#32 := BitVec.eq_of_toInt_eq hm
    decide
  · rw [toInt_sdiv_of_ne_corner hcorner, BitVec.toInt_srem]
    exact tdiv_tmod_law (BitVec.toInt_ne.mpr h0)

/-! Shifts -/

/-- Settles O18: each is the register form into `c` of a shift of words, which gives 0 from an amount of 32 on. -/
theorem shiftRegisterForms : Obligations.ShiftRegisterForms := by
  refine ⟨(decodesTo_iff ..).mpr fun _ _ _ _ => rfl, (decodesTo_iff ..).mpr fun _ _ _ _ => rfl, fun rd rs s => ?_⟩
  cases hd : Reg.ofField rd with
  | none => exact ⟨takesFault_of_intoFixedReg rfl (.inl hd), takesFault_of_intoFixedReg rfl (.inl hd)⟩
  | some dst =>
    cases hs : Reg.ofField rs with
    | none => exact ⟨takesFault_of_intoFixedReg rfl (.inr hs), takesFault_of_intoFixedReg rfl (.inr hs)⟩
    | some src =>
      have hr : CompletesInRegs (.shrReg rd rs) s [(.c, s.regs.get dst >>> (s.regs.get src).toNat)] := by
        rw [← shiftRight_eq]
        exact completesInRegs_of_intoFixedReg rfl hd hs
      have hl : CompletesInRegs (.shlReg rd rs) s [(.c, s.regs.get dst <<< (s.regs.get src).toNat)] := by
        rw [← shiftLeft_eq]
        exact completesInRegs_of_intoFixedReg rfl hd hs
      refine ⟨hr, hl, fun h32 => ⟨?_, ?_⟩⟩
      · rwa [BitVec.ushiftRight_eq_zero h32] at hr
      · rwa [BitVec.shiftLeft_eq_zero h32] at hl

/-- Settles O19: each is the immediate form into `c` of a shift of words, which gives 0 from an amount of 32 on. -/
theorem shiftImmediateForms : Obligations.ShiftImmediateForms := by
  refine ⟨(decodesTo_iff ..).mpr fun _ _ _ _ => rfl, (decodesTo_iff ..).mpr fun _ _ _ _ => rfl, fun rd v s => ?_⟩
  cases hd : Reg.ofField rd with
  | none => exact ⟨takesFault_of_intoFixedImm rfl hd, takesFault_of_intoFixedImm rfl hd⟩
  | some dst =>
    have hr : CompletesInRegs (.shrImm rd v) s [(.c, s.regs.get dst >>> v.toNat)] := by
      rw [← shiftRight_eq]
      exact completesInRegs_of_intoFixedImm rfl hd
    have hl : CompletesInRegs (.shlImm rd v) s [(.c, s.regs.get dst <<< v.toNat)] := by
      rw [← shiftLeft_eq]
      exact completesInRegs_of_intoFixedImm rfl hd
    refine ⟨hr, hl, fun h32 => ⟨?_, ?_⟩⟩
    · rwa [BitVec.ushiftRight_eq_zero h32] at hr
    · rwa [BitVec.shiftLeft_eq_zero h32] at hl

/-! JUMP -/

/-- An instruction whose effect is a JUMP's does what the statements say of it, under a condition that says when it is
taken. -/
theorem jumpsTo_of_execute {i : Instr} {s : State} {cond : JumpCond} {target : Word} {taken : Prop}
    (h : execute i s = jumpTo s cond target) (htaken : cond.taken s.regs.c = true ↔ taken) :
    JumpsTo i s target taken := by
  refine ⟨fun hin => ⟨fun hyes => ?_, fun hno => ?_⟩, fun hout => ?_⟩
  · refine completesInRegs_of_execute (h.trans (jumpTo_eq_ok.mpr ⟨hin, ?_⟩))
    exact (if_pos (htaken.mpr hyes)).symm
  · refine completes_to_next_word (h.trans (jumpTo_eq_ok.mpr ⟨hin, ?_⟩)) rfl
    exact (if_neg (mt htaken.mp hno)).symm
  · exact takesFault_of_execute (h.trans (withSpan_outside hout _))

/-! The conditions of R160 on the bits of `c` -/

theorem taken_zero_iff (c : Word) : JumpCond.zero.taken c = true ↔ c = 0#32 := beq_iff_eq

theorem taken_sign_iff (c : Word) : JumpCond.sign.taken c = true ↔ c.getLsbD 31 = true := by
  have hmsb : c.getLsbD 31 = decide (c.toInt < 0) := (BitVec.msb_eq_getLsbD_last c).symm.trans BitVec.msb_eq_toInt
  rw [hmsb, JumpCond.taken]

theorem taken_notSign_iff (c : Word) : JumpCond.notSign.taken c = true ↔ c.getLsbD 31 = false := by
  rw [← Bool.not_eq_true, ← taken_sign_iff, JumpCond.taken, JumpCond.taken, decide_eq_true_iff, decide_eq_true_iff,
    not_lt]

theorem taken_always_iff (c : Word) : JumpCond.always.taken c = true ↔ True := iff_of_true rfl trivial

/-- The width field of a JUMP with a register target selects its condition (R160). -/
theorem toInstr_jumpReg (width : WidthField) (dest src : RegField) (value : Word) :
    (⟨14#5, 0#1, width, dest, src, value⟩ : Instruction).toInstr = .ok (jumpRegOf width dest) := rfl

/-- The width field of a JUMP with an immediate target selects its condition (R160). -/
theorem toInstr_jumpImm (width : WidthField) (dest src : RegField) (value : Word) :
    (⟨14#5, 1#1, width, dest, src, value⟩ : Instruction).toInstr = .ok (jumpImmOf width value) := rfl

/-- Settles O23, by the register the field names: each is a JUMP to its value, under its own condition. -/
theorem jumpRegisterForms : Obligations.JumpRegisterForms := by
  refine ⟨(decodesTo_iff ..).mpr toInstr_jumpReg, fun rd s => ?_⟩
  cases hd : Reg.ofField rd with
  | none =>
    exact ⟨takesFault_of_execute (withReg_none hd _), takesFault_of_execute (withReg_none hd _),
      takesFault_of_execute (withReg_none hd _), takesFault_of_execute (withReg_none hd _)⟩
  | some dst =>
    exact ⟨jumpsTo_of_execute (withReg_some hd _) (taken_zero_iff _),
      jumpsTo_of_execute (withReg_some hd _) (taken_notSign_iff _),
      jumpsTo_of_execute (withReg_some hd _) (taken_sign_iff _),
      jumpsTo_of_execute (withReg_some hd _) (taken_always_iff _)⟩

/-- Settles O24: each is a JUMP to the value field, under its own condition. -/
theorem jumpImmediateForms : Obligations.JumpImmediateForms :=
  ⟨(decodesTo_iff ..).mpr toInstr_jumpImm, fun _ _ =>
    ⟨jumpsTo_of_execute rfl (taken_zero_iff _), jumpsTo_of_execute rfl (taken_notSign_iff _),
      jumpsTo_of_execute rfl (taken_sign_iff _), jumpsTo_of_execute rfl (taken_always_iff _)⟩⟩

end Sys2Proof.Machine
end

section
/-! STORE, PUSH and POP (spec/41, spec/44), and accesses one after the other (spec/20_memory.md): what a load reads of
what a store wrote, and what a fetch decodes of it. -/

namespace Sys2Proof.Machine

/-! The two stores and the two loads, where they complete -/

section Completes
variable {s : State} {rd : RegField} {dst : Reg} {w : WidthField}

theorem storeMem_completes (hm : s.mem.wf) (hd : Reg.ofField rd = some dst) (hw : w ≠ 3#2) {v : Word}
    (hin : v.toNat + 2 ^ w.toNat ≤ s.mem.capacity) :
    CompletesStoring (.storeMem rd w v) s [] v (2 ^ w.toNat) (s.regs.get dst) := by
  have hx : execute (.storeMem rd w v) s = .ok [.mem v (2 ^ w.toNat) (s.regs.get dst)] :=
    sizedAccess_inside (fun x n => [.mem v n (s.regs.get x)]) hd hw hin
  exact completesStoring_of hm hin (by rw [exec_eq_finish, hx]; rfl)

theorem push_completes (hm : s.mem.wf) (hd : Reg.ofField rd = some dst) (hw : w ≠ 3#2)
    (hin : s.regs.sp.toNat + 2 ^ w.toNat ≤ s.mem.capacity) :
    CompletesStoring (.push rd w) s [(.sp, s.regs.sp - 4#32)] s.regs.sp (2 ^ w.toNat) (s.regs.get dst) := by
  have hx : execute (.push rd w) s =
      .ok [.mem s.regs.sp (2 ^ w.toNat) (s.regs.get dst), .reg .sp (s.regs.sp - 4#32)] :=
    sizedAccess_inside (fun x n => [.mem s.regs.sp n (s.regs.get x), .reg .sp (s.regs.sp - 4#32)]) hd hw hin
  exact completesStoring_of hm hin (by rw [exec_eq_finish, hx]; rfl)

theorem loadMem_completes (hd : Reg.ofField rd = some dst) (hw : w ≠ 3#2) {v : Word}
    (hin : v.toNat + 2 ^ w.toNat ≤ s.mem.capacity) :
    CompletesInRegs (.loadMem rd w v) s [(dst, s.load v (2 ^ w.toNat))] :=
  completesInRegs_of_execute (sizedAccess_inside (fun x n => [.reg x (s.load v n)]) hd hw hin)

theorem pop_completes (hd : Reg.ofField rd = some dst) (hin : (s.regs.sp - 4#32).toNat + 4 ≤ s.mem.capacity) :
    CompletesInRegs (.pop rd) s [(.sp, s.regs.sp - 4#32), (dst, s.load (s.regs.sp - 4#32) 4)] :=
  completesInRegs_of_execute ((withReg_some hd _).trans (withSpan_inside hin _))

end Completes

/-- Settles O5: the checks in their order, and then one store. -/
theorem storeMemoryWritesLowBytes : Obligations.StoreMemoryWritesLowBytes := by
  refine ⟨(decodesTo_iff ..).mpr fun _ _ _ _ => rfl, fun rd w v s hm => ?_⟩
  cases hd : Reg.ofField rd with
  | none => exact takesFault_of_execute (withReg_none hd _)
  | some dst =>
    dsimp only
    split_ifs with hw hin
    · subst hw
      exact takesFault_of_execute (sizedAccess_size_three _ hd)
    · exact storeMem_completes hm hd hw hin
    · exact takesFault_of_execute (sizedAccess_outside _ hd hw hin)

/-- Settles O20: the checks in their order, and then one store at the old `sp` and the write of the new one. -/
theorem pushStoresAtOldSp : Obligations.PushStoresAtOldSp := by
  refine ⟨(decodesTo_iff ..).mpr fun _ _ _ _ => rfl, fun rd w s hm => ?_⟩
  cases hd : Reg.ofField rd with
  | none => exact takesFault_of_execute (withReg_none hd _)
  | some dst =>
    dsimp only
    split_ifs with hw hin
    · subst hw
      exact takesFault_of_execute (sizedAccess_size_three _ hd)
    · exact push_completes hm hd hw hin
    · exact takesFault_of_execute (sizedAccess_outside _ hd hw hin)

/-- Settles O21: the field, then the span at the new `sp`, and then two register writes of which the later wins. -/
theorem popReadsBelowSp : Obligations.PopReadsBelowSp := by
  refine ⟨(decodesTo_iff ..).mpr fun _ _ _ _ => rfl, fun rd s => ?_⟩
  cases hd : Reg.ofField rd with
  | none => exact takesFault_of_execute (withReg_none hd _)
  | some dst =>
    dsimp only
    split_ifs with hin
    · exact ⟨_, pop_completes hd hin, fun k hk =>
        (Memory.extract_readSpan s.mem _ (le_refl 4) hk).trans (if_pos hk)⟩
    · exact takesFault_of_execute ((withReg_some hd _).trans (withSpan_outside hin _))

/-- Settles O22: the POP's dword lies eight below the PUSH's, so the PUSH left its bytes. -/
theorem pushThenPopReadsEightBelow : Obligations.PushThenPopReadsEightBelow := by
  rintro rd rd' dst dst' s ⟨hm, -, -, -⟩ hd hd' hne h8 hin
  obtain ⟨t, ⟨ht, htlatch, -, htwritten, -⟩, hcap, -, hframe⟩ := push_completes hm hd (w := 2#2) (by decide) hin
  have htsp : t.regs.sp = s.regs.sp - 4#32 := htwritten .sp _ rfl
  have height : t.regs.sp - 4#32 = s.regs.sp - 8#32 := by rw [htsp, sub_sub]; rfl
  have haddr : (t.regs.sp - 4#32).toNat = s.regs.sp.toNat - 8 := by
    rw [height]
    exact BitVec.toNat_sub_of_le (BitVec.le_def.mpr h8)
  obtain ⟨u, ⟨hu, hulatch, -, huwritten, -⟩, -⟩ := pop_completes (s := t) hd' (by omega)
  refine ⟨t, u, ht, hu, hulatch.trans htlatch, ?_, fun k hk => ?_⟩
  · rw [← height]
    exact huwritten .sp _ (by simp [lastWrite, hne])
  · have hdst : u.regs.get dst' = t.load (t.regs.sp - 4#32) 4 := huwritten dst' _ (by simp [lastWrite])
    rw [hdst, State.load, haddr, Memory.extract_readSpan _ _ (le_refl 4) hk, if_pos hk]
    refine hframe _ fun j hj => ?_
    omega

/-! A load inside a store -/

/-- A word is its four bytes. -/
theorem word_eq_of_bytes {x y : Word} (h : ∀ k, k < 4 → x.extractLsb' (8 * k) 8 = y.extractLsb' (8 * k) 8) : x = y := by
  apply BitVec.eq_of_getLsbD_eq
  intro i hi
  have hbyte := congrArg (fun b => b.getLsbD (i % 8)) (h (i / 8) (by omega))
  have hmod : i % 8 < 8 := Nat.mod_lt i (by decide)
  simpa only [BitVec.getLsbD_extractLsb', hmod, decide_true, Bool.true_and, Nat.div_add_mod] using hbyte

/-- The bytes of a word shifted right by `j` bytes, cut to `n` bytes and zero-extended (R48). -/
theorem extract_shift_narrow (x : Word) (j n : Nat) {k : Nat} (hk : k < 4) :
    (((x >>> (8 * j)).setWidth (8 * n)).setWidth 32).extractLsb' (8 * k) 8 =
      if k < n then x.extractLsb' (8 * (j + k)) 8 else 0 := by
  apply BitVec.eq_of_getLsbD_eq
  intro i hi
  have hword : 8 * k + i < 32 := by omega
  simp only [BitVec.getLsbD_extractLsb', BitVec.getLsbD_setWidth, BitVec.getLsbD_ushiftRight, hi, hword, decide_true,
    Bool.true_and]
  split
  · next hkn =>
    have hin : 8 * k + i < 8 * n := by omega
    simp only [BitVec.getLsbD_extractLsb', hi, hin, decide_true, Bool.true_and]
    congr 1
    omega
  · next hkn =>
    have hout : ¬ 8 * k + i < 8 * n := by omega
    simp [hout]

/-- An address inside memory does not wrap (R45). -/
theorem toNat_add_ofNat {v : Word} {j : Nat} (h : v.toNat + j < 4294967296) :
    (v + BitVec.ofNat 32 j).toNat = v.toNat + j := by
  rw [BitVec.toNat_add, BitVec.toNat_ofNat]
  omega

/-- Settles O45, byte by byte: byte `k` of the load is byte `j + k` of the store. -/
theorem mixedWidthReads : Obligations.MixedWidthReads := by
  rintro rd rd' dst dst' w w' v j s ⟨hm, -, (hmax : s.mem.capacity ≤ 4294967296), -⟩ hd hd' hw hw' hj hin
  obtain ⟨t, ⟨ht, -⟩, hcap, hstored, -⟩ := storeMem_completes hm hd hw hin
  have hpos : 0 < 2 ^ w'.toNat := Nat.two_pow_pos _
  have haddr : (v + BitVec.ofNat 32 j).toNat = v.toNat + j := toNat_add_ofNat (by omega)
  obtain ⟨u, ⟨hu, -, -, huwritten, -⟩, -⟩ :=
    loadMem_completes (s := t) (v := v + BitVec.ofNat 32 j) hd' hw' (by rw [haddr, hcap]; omega)
  refine ⟨t, u, ht, hu, ?_⟩
  have hdst : u.regs.get dst' = t.load (v + BitVec.ofNat 32 j) (2 ^ w'.toNat) := huwritten dst' _ (by simp [lastWrite])
  rw [hdst, State.load, haddr]
  refine word_eq_of_bytes fun k hk => ?_
  rw [Memory.extract_readSpan _ _ (two_pow_width_le hw') hk, extract_shift_narrow _ _ _ hk]
  split
  · rw [Nat.add_assoc]
    exact hstored (j + k) (by omega)
  · rfl

/-! A fetch over a store -/

/-- The four bytes of a word, joined again, are the word. -/
theorem append_extract_bytes (x : Word) :
    x.extractLsb' 24 8 ++ x.extractLsb' 16 8 ++ x.extractLsb' 8 8 ++ x.extractLsb' 0 8 = x :=
  congrArg Instruction.value (Instruction.decode_packed 0#5 0#1 0#2 0#4 0#4 x)

/-- A fetch of a record whose value field holds the bytes of a word reads that word (R62, R81). -/
theorem fetch_value_of_bytes {s : State} {x : Word} (hin : s.regs.ip.toNat + 6 ≤ s.mem.capacity)
    (hbytes : ∀ k, k < 4 → s.mem.readByte (s.regs.ip.toNat + 2 + k) = x.extractLsb' (8 * k) 8) :
    ∃ u, fetch s = some u ∧ u.value = x := by
  refine ⟨_, fetch_eq_some hin, ?_⟩
  have h0 := hbytes 0 (by decide)
  have h1 := hbytes 1 (by decide)
  have h2 := hbytes 2 (by decide)
  have h3 := hbytes 3 (by decide)
  simp only [Nat.add_assoc, Nat.reduceAdd, Nat.reduceMul] at h0 h1 h2 h3
  simp only [Instruction.decode, h0, h1, h2, h3, append_extract_bytes]

/-- Settles O46: the STORE advances `ip` by 6, and the four bytes it wrote are those of the next value field. -/
theorem storedCodeIsFetched : Obligations.StoredCodeIsFetched := by
  rintro s w rd dst ⟨hm, -, (hmax : s.mem.capacity ≤ 4294967296), -⟩ hl hf hw hd hin
  have haddr : (s.regs.ip + 8#32).toNat = s.regs.ip.toNat + 8 := toNat_add_ofNat (by omega)
  obtain ⟨t, ⟨ht, htlatch, -⟩, hcap, hstored, -⟩ := storeMem_completes (s := s.fetched w) (w := 2#2)
    (v := s.regs.ip + 8#32) hm hd (by decide) (by simp [haddr]; omega)
  have hip : t.regs.ip = s.regs.ip + 6#32 :=
    ipAdvancesUnlessWritten _ (s.fetched w) t hl ht (htlatch.trans hl) rfl nofun
  have hnext : t.regs.ip.toNat = s.regs.ip.toNat + 6 := by
    rw [hip]
    exact toNat_add_ofNat (by omega)
  obtain ⟨u, hu, hvalue⟩ := fetch_value_of_bytes (s := t) (x := s.regs.get dst) (by rw [hnext, hcap]; exact hin)
    fun k hk => by
      rw [hnext, Nat.add_assoc s.regs.ip.toNat, ← haddr]
      exact hstored k hk
  exact ⟨t, u, (step_runs hl hf hw).trans ht, hip, hu, hvalue⟩

/-! The canonical form -/

/-- A listed cell is what its address reads as. -/
theorem readCells_of_mem {l : List Host.Cell} (hl : List.Pairwise (fun x y => x.1 < y.1) l) {a : Nat} {b : Byte}
    (h : (a, b) ∈ l) : readCells l a = b := by
  induction l with
  | nil => cases h
  | cons c rest ih =>
    obtain ⟨hfirst, hrest⟩ := List.pairwise_cons.mp hl
    rcases List.mem_cons.mp h with rfl | hmem
    · exact if_pos rfl
    · exact (if_neg (hfirst _ hmem).ne').trans (ih hrest hmem)

/-- An address that reads as another byte than an unlisted one is listed with it. -/
theorem mem_of_readCells_ne {l : List Host.Cell} {a : Nat} (h : readCells l a ≠ Config.unlistedByte) :
    (a, readCells l a) ∈ l := by
  induction l with
  | nil => exact absurd rfl h
  | cons c rest ih =>
    obtain ⟨x, b⟩ := c
    by_cases hx : a = x
    · rw [readCells, if_pos hx, hx]
      exact List.mem_cons_self
    · rw [readCells, if_neg hx] at h ⊢
      exact List.mem_cons_of_mem _ (ih h)

/-- In canonical form a cell is listed exactly when its byte differs from that of an unlisted address, and is what its
address reads as (R32, log 2). -/
theorem Memory.mem_cells_iff {m : Memory} (hm : m.wf) (a : Nat) (b : Byte) :
    (a, b) ∈ m.cells ↔ m.readByte a = b ∧ b ≠ Config.unlistedByte := by
  obtain ⟨hrising, hcells⟩ := hm
  refine ⟨fun h => ⟨readCells_of_mem hrising h, (hcells _ h).1⟩, ?_⟩
  rintro ⟨rfl, hne⟩
  exact mem_of_readCells_ne hne

/-- Two lists of cells at rising addresses with the same cells are the same list. -/
theorem rising_eq_of_mem_iff {l l' : List Host.Cell} (hl : List.Pairwise (fun x y => x.1 < y.1) l)
    (hl' : List.Pairwise (fun x y => x.1 < y.1) l') (h : ∀ c, c ∈ l ↔ c ∈ l') : l = l' := by
  have hdistinct : ∀ {k : List Host.Cell}, List.Pairwise (fun x y => x.1 < y.1) k → k.Nodup := fun hk =>
    hk.imp fun hlt heq => absurd (congrArg Prod.fst heq) hlt.ne
  refine List.Perm.eq_of_pairwise (fun x y _ _ hxy hyx => absurd hxy hyx.not_gt) hl hl' ?_
  exact (List.perm_ext_iff_of_nodup (hdistinct hl) (hdistinct hl')).mpr h

/-- Settles O44: two canonical lists of the same bytes list the same cells, in the same rising order. -/
theorem equalBytesEqualMemory : Obligations.EqualBytesEqualMemory := by
  intro m m' hm hm' hcap hbytes
  have hsame : ∀ c, c ∈ m.cells ↔ c ∈ m'.cells := fun ⟨a, b⟩ => by
    rw [Memory.mem_cells_iff hm, Memory.mem_cells_iff hm', hbytes]
  have hcells : m.cells = m'.cells := rising_eq_of_mem_iff hm.1 hm'.1 hsame
  obtain ⟨capacity, cells⟩ := m
  obtain ⟨capacity', cells'⟩ := m'
  exact congrArg₂ Memory.mk hcap hcells

end Sys2Proof.Machine
end

section
/-! The host's operations (spec/70_reset_and_hazards.md R190 to R197) and the placing of a word for the next fetch. -/

namespace Sys2Proof.Machine

/-! Power-on -/

/-- Power-on memory lists exactly the initial bytes inside it that differ from those of an unlisted address (R190). -/
theorem Memory.mem_cells_ofInit {capacity : Nat} {init : Nat → Byte} {a : Nat} {b : Byte} :
    (a, b) ∈ (Memory.ofInit capacity init).cells ↔ a < capacity ∧ init a = b ∧ b ≠ Config.unlistedByte := by
  simp only [Memory.ofInit, List.mem_filterMap, List.mem_range]
  constructor
  · rintro ⟨x, hx, hcell⟩
    split at hcell
    · cases hcell
    · next hne =>
      cases hcell
      exact ⟨hx, rfl, hne⟩
  · rintro ⟨ha, rfl, hne⟩
    exact ⟨a, ha, if_neg hne⟩

/-- Power-on memory reads as the initial bytes (R190). -/
theorem Memory.readByte_ofInit {capacity a : Nat} (init : Nat → Byte) (h : a < capacity) :
    (Memory.ofInit capacity init).readByte a = init a := by
  by_cases hlisted : init a = Config.unlistedByte
  · by_contra hne
    have hmem := mem_of_readCells_ne (l := (Memory.ofInit capacity init).cells) (a := a) fun hread =>
      hne (hread.trans hlisted.symm)
    obtain ⟨-, hread, -⟩ := Memory.mem_cells_ofInit.mp hmem
    exact hne hread.symm
  · exact ((Memory.mem_cells_iff (Memory.wf_ofInit capacity init) a (init a)).mp
      (Memory.mem_cells_ofInit.mpr ⟨h, rfl, hlisted⟩)).1

/-- With no initial byte but that of an unlisted address, power-on memory lists nothing. -/
theorem Memory.ofInit_unlisted (capacity : Nat) :
    Memory.ofInit capacity (fun _ => Config.unlistedByte) = ⟨capacity, []⟩ := by
  simp [Memory.ofInit]

/-- Settles O38: the registers and the latch are set so, and the bytes are read back from the cells listed for them. -/
theorem powerOnState : Obligations.PowerOnState := by
  refine ⟨fun capacity init hmin hmax => ⟨?_, fun r => ?_, rfl, rfl, rfl, fun a => Memory.readByte_ofInit init⟩, ?_⟩
  · exact ⟨Memory.wf_ofInit capacity init, hmin, hmax, .inl rfl⟩
  · cases r <;> rfl
  · exact congrArg (State.mk Regs.zero · none none) (Memory.ofInit_unlisted 8192).symm

/-! `reset()`, `load_image` and the register test access -/

/-- Settles O54: the latch is the one field `reset()` replaces. -/
theorem hostResetClearsLatchOnly : Obligations.HostResetClearsLatchOnly := fun _ =>
  ⟨rfl, State.clearLatch_of_healthy⟩

/-- Settles O55: an image that fits replaces memory by one with its bytes written from the offset up. -/
theorem loadImageAllOrNothing : Obligations.LoadImageAllOrNothing := by
  refine fun s bytes offset hm => ⟨fun hover => if_neg (not_le.mpr hover), fun hfits => ?_⟩
  exact ⟨_, State.loadImage_eq_next_iff.mpr ⟨hfits, rfl⟩, rfl, rfl, rfl, Memory.wf_writeBytes hm offset bytes,
    Memory.capacity_writeBytes s.mem offset bytes,
    fun k hk => Memory.readByte_writeBytes_inside hm offset bytes hk hfits,
    fun a ha => Memory.readByte_writeBytes_outside s.mem offset bytes ha⟩

/-- An index names a register exactly when it is at most 8 (R21, R197). -/
theorem Reg.ofIndex_eq_none_iff (index : Nat) : Reg.ofIndex index = none ↔ 8 < index := by
  rcases lt_or_ge 8 index with h | h
  · unfold Reg.ofIndex
    split
    case h_10 => simp [h]
    all_goals omega
  · interval_cases index <;> simp [Reg.ofIndex]

/-- Settles O57, by the register the index names: each access is of that register, or answers IndexFault. -/
theorem testAccessByIndex : Obligations.TestAccessByIndex := by
  intro s index v
  cases hr : Reg.ofIndex index with
  | none =>
    exact ⟨(Reg.ofIndex_eq_none_iff index).mp hr, by simp [State.testGet, hr], by simp [State.testGetSigned, hr],
      by simp [State.testSet, hr]⟩
  | some r =>
    have hindex : index ≤ 8 := by
      rw [← not_lt, ← Reg.ofIndex_eq_none_iff, hr]
      exact Option.some_ne_none r
    exact ⟨hindex, by simp [State.testGet, hr], by simp [State.testGetSigned, hr, Regs.getSigned], s.setReg r v,
      State.testSet_eq_next_iff.mpr ⟨r, hr, rfl⟩, Regs.get_set_same s.regs r v,
      fun q hq => Regs.get_set_of_ne s.regs v hq, rfl, rfl, rfl⟩

/-! The session -/

/-- Settles O58: every cycle gives a state, and the outcome is read off its latch. -/
theorem cycleOutcomeIsLatch : Obligations.CycleOutcomeIsLatch := by
  intro h
  obtain ⟨s, hs⟩ := step_total h.core
  refine ⟨s, s.outcome, hs, by rw [Session.cycle, hs], fun hl => ?_, fun k hl => ?_⟩
  · rw [State.outcome, hl]
  · rw [State.outcome, hl]

/-- The core's own `load_image` refuses nothing: it answers a state or a fault (R196). -/
theorem State.loadImage_ne_refused (s : State) (bytes : List Byte) (offset : Nat) (r : Refusal) :
    s.loadImage bytes offset ≠ .refused r := by
  unfold State.loadImage
  split <;> nofun

/-- A session's `load_image` is refused exactly when its mark is set (R195). -/
theorem Session.loadImage_eq_refused_iff (h : Session) (bytes : List Byte) (offset : Nat) :
    h.loadImage bytes offset = .refused .loadAfterFirstCycle ↔ h.cycled = true := by
  unfold Session.loadImage
  cases hmark : h.cycled with
  | true => simp
  | false =>
    cases hload : h.core.loadImage bytes offset with
    | next s => simp
    | fault k => simp
    | refused r => exact absurd hload (State.loadImage_ne_refused h.core bytes offset r)

/-- A `load_image` that succeeds is the core's, with the mark as it was. -/
theorem Session.loadImage_next {h h' : Session} {bytes : List Byte} {offset : Nat}
    (hload : h.loadImage bytes offset = .next h') :
    h'.cycled = h.cycled ∧ h.core.loadImage bytes offset = .next h'.core := by
  unfold Session.loadImage at hload
  split at hload
  · cases hload
  · cases hcore : h.core.loadImage bytes offset <;> rw [hcore] at hload <;> cases hload
    exact ⟨rfl, rfl⟩

/-- A register write that succeeds is the core's, with the mark as it was. -/
theorem Session.testSet_next {h h' : Session} {index : Nat} {v : Word} (hset : h.testSet index v = .next h') :
    h'.cycled = h.cycled ∧ h.core.testSet index v = .next h'.core := by
  unfold Session.testSet at hset
  cases hcore : h.core.testSet index v <;> rw [hcore] at hset <;> cases hset
  exact ⟨rfl, rfl⟩

/-- A cycle sets the mark. -/
theorem Session.cycle_cycled {h h' : Session} {o : CycleOutcome} (hcycle : h.cycle = .next (h', o)) :
    h'.cycled = true := by
  obtain ⟨s, hs⟩ := step_total h.core
  rw [Session.cycle, hs] at hcycle
  cases hcycle
  rfl

/-- Settles O56, operation by operation: the mark decides `load_image`, a cycle sets it, and no other one changes it. -/
theorem loadImageRefusedAfterCycle : Obligations.LoadImageRefusedAfterCycle := fun h bytes offset =>
  ⟨Session.loadImage_eq_refused_iff h bytes offset, fun _ _ => rfl, fun _ _ => Session.cycle_cycled,
    fun _ => Session.loadImage_next, ⟨rfl, rfl⟩, fun _ _ _ => Session.testSet_next⟩

/-! A word placed for the next fetch -/

/-- Six bytes placed at an `ip` inside memory are what the next fetch decodes. -/
theorem fetch_placeAtIp {s : State} (hm : s.mem.wf) (hin : s.regs.ip.toNat + 6 ≤ s.mem.capacity)
    (b0 b1 b2 b3 b4 b5 : Byte) :
    fetch (s.placeAtIp [b0, b1, b2, b3, b4, b5]) = some (Instruction.decode b0 b1 b2 b3 b4 b5) := by
  have hbyte : ∀ k (hk : k < 6), (s.placeAtIp [b0, b1, b2, b3, b4, b5]).mem.readByte (s.regs.ip.toNat + k) =
      [b0, b1, b2, b3, b4, b5][k] := fun k hk => Memory.readByte_writeBytes_inside hm s.regs.ip.toNat _ hk hin
  have hcap : (s.placeAtIp [b0, b1, b2, b3, b4, b5]).mem.capacity = s.mem.capacity :=
    Memory.capacity_writeBytes ..
  have h0 := hbyte 0 (by decide)
  rw [Nat.add_zero] at h0
  rw [fetch_eq_some (by rw [hcap]; exact hin), State.placeAtIp_regs, h0, hbyte 1 (by decide), hbyte 2 (by decide),
    hbyte 3 (by decide), hbyte 4 (by decide), hbyte 5 (by decide)]
  rfl

/-- A table word that gives an instruction is six bytes whose record names it (R73). -/
theorem tableWordBytes_of_decodeTableWord {nbits w : Nat} {i : Instr} (h : decodeTableWord nbits w = some i) :
    ∃ b0 b1 b2 b3 b4 b5 : Byte, tableWordBytes nbits w = [b0, b1, b2, b3, b4, b5] ∧
      (Instruction.decode b0 b1 b2 b3 b4 b5).toInstr = .ok i := by
  refine ⟨_, _, _, _, _, _, tableWordBytes_eq nbits w, ?_⟩
  unfold decodeTableWord at h
  split at h
  · next j rest hdecode =>
    obtain rfl := Option.some.inj h
    rw [tableWordBytes_eq] at hdecode
    exact ((decode_six_cons_eq_ok_iff ..).mp hdecode).1
  · cases h

/-- Settles O59: the placed bytes are what the next fetch decodes, and only they change where `ip` could fetch. -/
theorem placedWordRunsNext : Obligations.PlacedWordRunsNext := by
  rintro s nbits w i ⟨hm, hmin, -, -⟩ hi
  obtain ⟨b0, b1, b2, b3, b4, b5, hbytes, hr⟩ := tableWordBytes_of_decodeTableWord hi
  refine ⟨⟨_, hr, ?_⟩, fun hin => ?_⟩
  · have hfetch : fetch (s.withFetchWord nbits w) = some (Instruction.decode b0 b1 b2 b3 b4 b5) := by
      rw [State.withFetchWord, hbytes]
      refine fetch_placeAtIp ?_ ?_ ..
      · rwa [State.readyToFetch_mem]
      · rw [State.readyToFetch_mem]
        exact State.readyToFetch_inBounds hmin
    exact step_runs (State.withFetchWord_latch s nbits w) hfetch hr
  · rw [State.withFetchWord_regs, State.withFetchWord_mem, State.readyToFetch_of_inBounds hin]
    exact ⟨rfl, fun a ha => Memory.readByte_writeBytes_outside s.mem _ _ (by simpa using ha)⟩

end Sys2Proof.Machine
end
